-- ==== Sys2Proof/Word.lean ====
section
/-! DEFINITION. The two word types of the engine: the byte (registers, cells, operands) and the 9-bit address. -/

namespace Sys2Proof

/-- A byte: the width of a register, a memory cell, an opcode and an operand (00_scope.md R5, R6). -/
abbrev Byte := BitVec 8

/-- The program counter and the address input of the memory interface: 9 bits, so that 256 can be held and
presented without wrapping (10_state.md R16, 20_memory.md R30; log entry 4). -/
abbrev Addr := BitVec 9

end Sys2Proof
end

