-- ==== Sys2Proof/Config.lean ====
section
/-! DEFINITION. The parameters the spec leaves to a model (00_scope.md R5). Their defaults, and the reset constants, are
in Machine/Defaults.lean. -/

namespace Sys2Proof

/-- The ten mnemonics (00_scope.md R1), in the order of 30_encoding.md R53. -/
inductive Mnemonic where
  | ldi | prn | hlt | push | pop | call | ret | add | mul | cmp
  deriving DecidableEq, Repr

/-- The list of the ten mnemonics. -/
def Mnemonic.all : List Mnemonic :=
  [.ldi, .prn, .hlt, .push, .pop, .call, .ret, .add, .mul, .cmp]

/-- Bits 7 to 4 of the opcode byte, fixed whatever `OPC` is chosen (30_encoding.md R52). -/
def Mnemonic.highNibble : Mnemonic → BitVec 4
  | .ldi => 0x8
  | .prn => 0x4
  | .hlt => 0x0
  | .push => 0x4
  | .pop => 0x4
  | .call => 0x5
  | .ret => 0x1
  | .add => 0xA
  | .mul => 0xA
  | .cmp => 0xA

/-- Parameter `OPC`: the opcode byte of each mnemonic (00_scope.md R5, 30_encoding.md R53). -/
structure OpcodeMap where
  ldi : Byte
  prn : Byte
  hlt : Byte
  push : Byte
  pop : Byte
  call : Byte
  ret : Byte
  add : Byte
  mul : Byte
  cmp : Byte
  deriving DecidableEq, Repr

/-- The opcode byte `OPC.m`. -/
def OpcodeMap.byte (O : OpcodeMap) : Mnemonic → Byte
  | .ldi => O.ldi
  | .prn => O.prn
  | .hlt => O.hlt
  | .push => O.push
  | .pop => O.pop
  | .call => O.call
  | .ret => O.ret
  | .add => O.add
  | .mul => O.mul
  | .cmp => O.cmp

/-- What `OPC` must satisfy: the high nibbles of 30_encoding.md R52 and ten distinct bytes (00_scope.md R5). -/
def OpcodeMap.wf (O : OpcodeMap) : Bool :=
  Mnemonic.all.all (fun m => (O.byte m).extractLsb' 4 4 == m.highNibble)
    && decide ((Mnemonic.all.map O.byte).Nodup)

/-- Parameter `FL_PACK`: the bit of the flags byte that shows each flag (10_state.md R14). -/
structure FlagPack where
  less : Fin 8
  greater : Fin 8
  equal : Fin 8
  deriving DecidableEq, Repr

/-- The three flags are shown in three different bits. -/
def FlagPack.wf (K : FlagPack) : Bool :=
  K.less != K.greater && K.less != K.equal && K.greater != K.equal

/-- The parameters a model takes (00_scope.md R5): `SP_INDEX`, `OPC`, `FL_PACK`, `HLT_PC_DELTA`. `IMAGE` is the
argument of the load (Machine/Control.lean), `PC_WIDTH` the width of `Addr`. -/
structure Params where
  spIndex : Fin 8
  opc : OpcodeMap
  flPack : FlagPack
  hltPcDelta : Fin 2
  deriving DecidableEq, Repr

/-- The constraints on the parameters: those on `OPC` and on `FL_PACK`. -/
def Params.wf (P : Params) : Bool := P.opc.wf && P.flPack.wf

end Sys2Proof
end

