-- ==== Sys2Proof/Machine/Defaults.lean ====
section
/-! DEFINITION. The default parameters of the machine and the constants of its reset. -/

namespace Sys2Proof

/-- The default opcode bytes (30_encoding.md R53). PRESUMED: the low nibbles are from general knowledge (D2);
log entry 1, unsafe for programs given as bytes. -/
def Config.opc : OpcodeMap where
  ldi := 0x82
  prn := 0x47
  hlt := 0x01
  push := 0x45
  pop := 0x46
  call := 0x50
  ret := 0x11
  add := 0xA0
  mul := 0xA2
  cmp := 0xA7

/-- The default parameters (00_scope.md R5). PRESUMED: `SP_INDEX` 7 (D1, log entry 2, unsafe) and the packing
`0b00000LGE` (D3, log entry 3, display only). UNVERIFIED: `HLT_PC_DELTA` 0 (90_conflicts.md C6, log entry 6). -/
def Config.params : Params where
  spIndex := 7
  opc := Config.opc
  flPack := { less := 2, greater := 1, equal := 0 }
  hltPcDelta := 0

/-- The initial stack pointer (00_scope.md R5, 10_state.md R25). -/
def Config.initialSp : Byte := 0xF3

/-- What a memory cell that nothing has written since power-on reads as (70_reset_and_hazards.md R140: "Every
memory cell becomes 0"; 20_memory.md R32). -/
def Config.unlistedByte : Byte := 0

end Sys2Proof
end

