-- ==== Sys2Proof/Syntax.lean ====
section
/-! DEFINITION. The instructions: one constructor per row of spec/opcode_table.json, with its operand bytes. -/

namespace Sys2Proof

/-- The ten instructions. An operand is the whole operand byte: a register index 8 to 255 is a legal encoding that
faults when it executes (30_encoding.md R55, R56, R59), so it is a term here and is caught by the meaning. -/
inductive Instr where
  /-- LDI `Ra v` (41_load_immediate_and_print.md R85): register index, immediate. -/
  | ldi (a v : Byte)
  /-- PRN `Ra` (41_load_immediate_and_print.md R87). -/
  | prn (a : Byte)
  /-- HLT (45_halt.md R110). -/
  | hlt
  /-- PUSH `Ra` (43_stack.md R100). -/
  | push (a : Byte)
  /-- POP `Ra` (43_stack.md R101). -/
  | pop (a : Byte)
  /-- CALL `Ra` (44_subroutine.md R105). -/
  | call (a : Byte)
  /-- RET (44_subroutine.md R106). -/
  | ret
  /-- ADD `Ra Rb` (42_alu.md R92). -/
  | add (a b : Byte)
  /-- MUL `Ra Rb` (42_alu.md R93). -/
  | mul (a b : Byte)
  /-- CMP `Ra Rb` (42_alu.md R91). -/
  | cmp (a b : Byte)
  deriving DecidableEq, Repr

end Sys2Proof
end

