-- ==== Sys2Proof/Decode.lean ====
section
/-! DEFINITION. The decoder, total on any bytes and refusing by name, and the encoder (30_encoding.md). Both take
the opcode map `OPC`; `decode` and `encode` are theirs at the default map. -/

namespace Sys2Proof

/-- Bits 7 to 6 of the opcode byte, an unsigned 2-bit integer: the operand count (30_encoding.md R50, R51). -/
def operandCount (ir : Byte) : Nat := (ir.extractLsb 7 6).toNat

/-- Bit 5 of the opcode byte, the descriptive "is ALU operation" marker (30_encoding.md R51). -/
def aluMarker (ir : Byte) : Bool := ir.getLsbD 5

/-- Bit 4 of the opcode byte, the descriptive "sets pc directly" marker (30_encoding.md R51). -/
def pcMarker (ir : Byte) : Bool := ir.getLsbD 4

/-- Bits 3 to 0 of the opcode byte, the opcode number (30_encoding.md R51). -/
def opcodeNumber (ir : Byte) : BitVec 4 := ir.extractLsb' 0 4

/-- Decoding is exact match of the whole byte against the ten values of `OPC` (30_encoding.md R54). -/
def decodeOpcode (O : OpcodeMap) (ir : Byte) : Option Mnemonic :=
  Mnemonic.all.find? (fun m => O.byte m == ir)

/-- The instruction of a mnemonic and its fetched operand bytes (formats F0, F1, F2 of 30_encoding.md R50). -/
def Mnemonic.assemble (m : Mnemonic) (opA opB : Byte) : Instr :=
  match m with
  | .ldi => .ldi opA opB
  | .prn => .prn opA
  | .hlt => .hlt
  | .push => .push opA
  | .pop => .pop opA
  | .call => .call opA
  | .ret => .ret
  | .add => .add opA opB
  | .mul => .mul opA opB
  | .cmp => .cmp opA opB

/-- Why a byte sequence is refused. -/
inductive DecodeReject where
  /-- There is no opcode byte. -/
  | noOpcode
  /-- The first byte is none of the ten opcodes (30_encoding.md R58). -/
  | unknownOpcode (ir : Byte)
  /-- The opcode takes an operand A and no byte follows. -/
  | missingOperandA
  /-- The opcode takes an operand B and only one byte follows. -/
  | missingOperandB
  deriving DecidableEq, Repr

/-- Take `n` operand bytes from the bytes after the opcode, A before B (40_fetch_decode_execute.md R74); an operand
the format does not have is 0. No opcode of a well-formed map has `n` above 2 (30_encoding.md R57). -/
def takeOperands (n : Nat) (bytes : List Byte) : Except DecodeReject (Byte × Byte × List Byte) :=
  match n, bytes with
  | 0, rest => .ok (0, 0, rest)
  | _ + 1, [] => .error .missingOperandA
  | 1, a :: rest => .ok (a, 0, rest)
  | _ + 2, [_] => .error .missingOperandB
  | _ + 2, a :: b :: rest => .ok (a, b, rest)

/-- The decoder under an opcode map: the first instruction of a byte sequence, with the bytes after it. The opcode is
recognised before any operand byte is looked at (30_encoding.md R57, 40_fetch_decode_execute.md R73). -/
def decodeWith (O : OpcodeMap) (bytes : List Byte) : Except DecodeReject (Instr × List Byte) :=
  match bytes with
  | [] => .error .noOpcode
  | ir :: more =>
    match decodeOpcode O ir with
    | none => .error (.unknownOpcode ir)
    | some m =>
      match takeOperands (operandCount ir) more with
      | .error e => .error e
      | .ok (opA, opB, rest) => .ok (m.assemble opA opB, rest)

/-- The decoder under the default opcode map. -/
def decode (bytes : List Byte) : Except DecodeReject (Instr × List Byte) := decodeWith Config.params.opc bytes

/-- The mnemonic of an instruction. -/
def Instr.mnemonic : Instr → Mnemonic
  | .ldi _ _ => .ldi
  | .prn _ => .prn
  | .hlt => .hlt
  | .push _ => .push
  | .pop _ => .pop
  | .call _ => .call
  | .ret => .ret
  | .add _ _ => .add
  | .mul _ _ => .mul
  | .cmp _ _ => .cmp

/-- The operand bytes of an instruction, in address order (30_encoding.md R50, R61). -/
def Instr.operandBytes : Instr → List Byte
  | .ldi a v => [a, v]
  | .prn a => [a]
  | .hlt => []
  | .push a => [a]
  | .pop a => [a]
  | .call a => [a]
  | .ret => []
  | .add a b => [a, b]
  | .mul a b => [a, b]
  | .cmp a b => [a, b]

/-- The encoder under an opcode map: the opcode byte, then operand A, then operand B (30_encoding.md R50, R61). -/
def encodeWith (O : OpcodeMap) (i : Instr) : List Byte := O.byte i.mnemonic :: i.operandBytes

/-- The encoder under the default opcode map. -/
def encode (i : Instr) : List Byte := encodeWith Config.params.opc i

/-- The three bytes an instruction can have, of a table word: the byte at the lowest address is bits 7 to 0
(20_memory.md R34); bits above `nbits` are 0. -/
def tableBytes (nbits w : Nat) : List Byte :=
  let v := w % 2 ^ nbits
  [BitVec.ofNat 8 v, BitVec.ofNat 8 (v / 256), BitVec.ofNat 8 (v / 65536)]

/-- The instruction the decoder reads from a table word. -/
def decodeTableWord (nbits w : Nat) : Option Instr :=
  match decode (tableBytes nbits w) with
  | .ok (i, _) => some i
  | .error _ => none

end Sys2Proof
end

