-- ==== Sys2Proof/Machine/State.lean ====
section
/-! DEFINITION. The state of the engine, as plain data: the tuple (R, FL, pc, RUN, FAULT, M, OUT) of 10_state.md,
its value after power-on reset, and the reasons for which the host's own request can be refused. -/

namespace Sys2Proof.Machine

/-- The register file: eight 8-bit registers (10_state.md R10). The stack pointer is one of them (R11). -/
structure RegFile where
  r0 : Byte
  r1 : Byte
  r2 : Byte
  r3 : Byte
  r4 : Byte
  r5 : Byte
  r6 : Byte
  r7 : Byte
  deriving DecidableEq, Repr

/-- The register file whose register `i` holds `f i`. -/
def RegFile.ofFn (f : Fin 8 → Byte) : RegFile where
  r0 := f 0
  r1 := f 1
  r2 := f 2
  r3 := f 3
  r4 := f 4
  r5 := f 5
  r6 := f 6
  r7 := f 7

/-- The flags register `FL`: three independent booleans (10_state.md R14). -/
structure Flags where
  less : Bool
  greater : Bool
  equal : Bool
  deriving DecidableEq, Repr

/-- The flags register with every bit clear, its value at reset (10_state.md R14, R25). -/
def Flags.clear : Flags where
  less := false
  greater := false
  equal := false

/-- The operation attempted by a checked access (10_state.md R20, 60_exceptions.md R121). -/
inductive Access where
  | regRead | regWrite | memRead | memWrite
  deriving DecidableEq, Repr

/-- The fault record (10_state.md R20, 60_exceptions.md R121). -/
inductive FaultRecord where
  /-- The unknown opcode byte and the address it was fetched from (60_exceptions.md R120). -/
  | decodeError (opcode addr : Byte)
  /-- The operation attempted and the offending register index or address, 9 bits (60_exceptions.md R121, R122). -/
  | addressingError (op : Access) (value : BitVec 9)
  deriving DecidableEq, Repr

/-- The run state `RUN` (10_state.md R19). -/
inductive RunState where
  | running | halted | faulted
  deriving DecidableEq, Repr

/-- The memory: the cells that do not hold the reset value, by rising address (form: `Memory.wf` in Ops.lean). -/
abbrev Memory := List Host.Cell

/-- The whole state of the engine (10_state.md R10 to R24). -/
structure State where
  /-- `R[0..7]`, the stack pointer among them (R10, R11). -/
  regs : RegFile
  /-- `FL` (R14). -/
  flags : Flags
  /-- `pc`, 9 bits (R16). -/
  pc : Addr
  /-- `RUN` (R19). -/
  run : RunState
  /-- `FAULT` (R20). -/
  fault : Option FaultRecord
  /-- `M[0..255]` (R22). -/
  mem : Memory
  /-- `OUT`, oldest value first (R23). -/
  out : List Byte
  deriving DecidableEq, Repr

/-- Reasons for which `exec` or `step` would stop the machine outside the spec's own states. There is none: a fault of
this hardware is the state `Faulted` with its record (60_exceptions.md R124), and the engine then answers every step
request with the unchanged state (40_fetch_decode_execute.md R70). DESIGN CHOICE, log entry 16; safe. -/
inductive Fault : Type where
  deriving DecidableEq, Repr

/-- Reasons to refuse. -/
inductive Refusal where
  /-- Raised by an arm of `exec` whose instruction has no meaning yet; none is left. Safe. -/
  | notModelled (mnemonic : String)
  /-- Raised by the load port for an image of more than 256 bytes, which has no launch state
  (70_reset_and_hazards.md R144, D12; log entry 12). Safe. -/
  | imageTooLong (length : Nat)
  /-- Raised by the load port when a step has been requested since the last reset: the host does not load during a run
  (70_reset_and_hazards.md R144, R149; log entry 13). Safe. -/
  | loadDuringRun
  deriving DecidableEq, Repr

/-- The state after power-on reset under given parameters (10_state.md R25, 70_reset_and_hazards.md R140, R141). -/
def State.resetWith (P : Params) : State where
  regs := RegFile.ofFn (fun i => if i = P.spIndex then Config.initialSp else 0)
  flags := Flags.clear
  pc := 0
  run := .running
  fault := none
  mem := []
  out := []

/-- The state after power-on reset, before any load (10_state.md R25, 70_reset_and_hazards.md R140). -/
def State.reset : State := State.resetWith Config.params

end Sys2Proof.Machine
end

