-- ==== Sys2Proof/Machine/Ops.lean ====
section
/-! DEFINITION. The named operations over registers, memory and the rest of the state (00_scope.md R8), among them the
one fault entry of the machine (60_exceptions.md R124). -/

namespace Sys2Proof.Machine

/-- The value of register `i`. -/
def RegFile.get (r : RegFile) (i : Fin 8) : Byte :=
  match i with
  | 0 => r.r0
  | 1 => r.r1
  | 2 => r.r2
  | 3 => r.r3
  | 4 => r.r4
  | 5 => r.r5
  | 6 => r.r6
  | 7 => r.r7

/-- The register file with register `i` holding `v`. -/
def RegFile.set (r : RegFile) (i : Fin 8) (v : Byte) : RegFile :=
  match i with
  | 0 => { r with r0 := v }
  | 1 => { r with r1 := v }
  | 2 => { r with r2 := v }
  | 3 => { r with r3 := v }
  | 4 => { r with r4 := v }
  | 5 => { r with r5 := v }
  | 6 => { r with r6 := v }
  | 7 => { r with r7 := v }

/-- The byte at an address: the listed one, or what an unlisted cell reads as (20_memory.md R32). -/
def Memory.read (m : Memory) (a : Nat) : Byte :=
  match m with
  | [] => Config.unlistedByte
  | (k, v) :: rest => if a = k then v else Memory.read rest a

/-- Put a cell before `rest`, unless it holds what an unlisted cell reads as. -/
def Memory.cell (a : Nat) (v : Byte) (rest : Memory) : Memory :=
  if v = Config.unlistedByte then rest else (a, v) :: rest

/-- The memory with one cell changed (20_memory.md R32), in canonical form. -/
def Memory.write (m : Memory) (a : Nat) (v : Byte) : Memory :=
  match m with
  | [] => Memory.cell a v []
  | (k, w) :: rest =>
    if a < k then Memory.cell a v ((k, w) :: rest)
    else if a = k then Memory.cell a v rest
    else (k, w) :: Memory.write rest a v

/-- The canonical form above a lower bound: addresses at least `lo`, strictly rising and below 256, and no cell that
holds what an unlisted cell reads as. -/
def Memory.wfFrom (lo : Nat) (m : Memory) : Bool :=
  match m with
  | [] => true
  | (k, v) :: rest => decide (lo ≤ k) && decide (k < 256) && v != Config.unlistedByte && Memory.wfFrom (k + 1) rest

/-- The canonical form of the memory, so that equal memories are equal data (10_state.md R22). -/
def Memory.wf (m : Memory) : Bool := Memory.wfFrom 0 m

/-- Bytes placed at `k`, `k + 1`, … in order (70_reset_and_hazards.md R144). -/
def Memory.place (m : Memory) (k : Nat) (bytes : List Byte) : Memory :=
  match bytes with
  | [] => m
  | b :: rest => Memory.place (Memory.write m k b) (k + 1) rest

/-- `R[i] <- v`. -/
def State.setReg (s : State) (i : Fin 8) (v : Byte) : State := { s with regs := s.regs.set i v }

/-- `FL <- f`. -/
def State.setFlags (s : State) (f : Flags) : State := { s with flags := f }

/-- `pc <- t`. -/
def State.setPc (s : State) (t : Addr) : State := { s with pc := t }

/-- `M[a] <- v`, for an address already checked. -/
def State.setByte (s : State) (a : Nat) (v : Byte) : State := { s with mem := s.mem.write a v }

/-- `Emit(v)`: append to the output trace (00_scope.md R8, 10_state.md R23; log entry 14). -/
def State.emit (s : State) (v : Byte) : State := { s with out := s.out ++ [v] }

/-- `halt`: `RUN <- Halted` (00_scope.md R8, 45_halt.md R110). -/
def State.halt (s : State) : State := { s with run := .halted }

/-- Fault entry: `RUN <- Faulted`, `FAULT <-` the record, nothing else (60_exceptions.md R124; log entry 7). -/
def State.raise (s : State) (f : FaultRecord) : State := { s with run := .faulted, fault := some f }

/-- The sequencer after an instruction with `n` operand bytes: `pc <- pc + 1 + n` (40_fetch_decode_execute.md R76).
Exact in 9 bits for every instruction a step completes, whose last byte is at 255 or below. -/
def State.advance (s : State) (n : Nat) : State := s.setPc (s.pc + BitVec.ofNat 9 (1 + n))

/-- `MemRead(a, 1)`, bounds checked (00_scope.md R8, 20_memory.md R31). -/
def State.memRead (s : State) (a : Addr) : Except FaultRecord Byte :=
  if a.toNat < 256 then .ok (s.mem.read a.toNat) else .error (.addressingError .memRead a)

/-- `MemWrite(a, 1, v)`, bounds checked (00_scope.md R8, 20_memory.md R31). -/
def State.memWrite (s : State) (a : Addr) (v : Byte) : Except FaultRecord State :=
  if a.toNat < 256 then .ok (s.setByte a.toNat v) else .error (.addressingError .memWrite a)

/-- A step is transactional: the writes of the instruction become the new state together, or the whole of them is
discarded and the old state takes the fault (00_scope.md R8, 60_exceptions.md R124; log entry 7). -/
def transact (s : State) (r : Except FaultRecord State) : Host.Outcome State Fault Refusal :=
  match r with
  | .ok t => .next t
  | .error f => .next (s.raise f)

end Sys2Proof.Machine
end

