-- ==== Sys2Proof/Machine/Fetch.lean ====
section
/-! DEFINITION. Phases 1 to 3 of the step: opcode fetch, decode, operand fetch (40_fetch_decode_execute.md R72 to R74);
and the placing of an instruction where the next step fetches it. -/

namespace Sys2Proof.Machine

/-- Phases 1 to 3 in their order: the opcode byte at `pc` (R72), its recognition (R73), operand A at `pc + 1` and operand
B at `pc + 2` when the opcode has them (R74). Fetches do not wrap; the additions are exact, since `pc` is at most 255
once the opcode fetch has succeeded. -/
def fetchWith (O : OpcodeMap) (s : State) : Except FaultRecord Instr := do
  let ir ← s.memRead s.pc
  match decodeOpcode O ir with
  | none => .error (.decodeError ir (s.pc.setWidth 8))
  | some m =>
    let n := operandCount ir
    let opA ← if 1 ≤ n then s.memRead (s.pc + 1) else .ok 0
    let opB ← if n = 2 then s.memRead (s.pc + 2) else .ok 0
    return m.assemble opA opB

/-- The bytes the next instruction can occupy: up to three cells from `pc`, as far as the address space goes. -/
def State.fetchWindow (s : State) : List Byte :=
  (List.range (min 3 (256 - s.pc.toNat))).map (fun k => s.mem.read (s.pc.toNat + k))

/-- Bytes placed at `pc` and after, as far as the address space goes. -/
def State.placeAtPc (s : State) (bytes : List Byte) : State :=
  { s with mem := s.mem.place s.pc.toNat (bytes.take (256 - s.pc.toNat)) }

end Sys2Proof.Machine
end

