-- ==== Sys2Proof/Machine/Cycle.lean ====
section
/-! DEFINITION. The step cycle over any execute function (40_fetch_decode_execute.md R70, R71, R77). -/

namespace Sys2Proof.Machine

/-- The step (R77) over an opcode map and an execute function: a terminal state is returned unchanged (R70; log entry
11); a fetch or decode that raises leaves only the fault; otherwise the fetched instruction executes. -/
def stepUsing (O : OpcodeMap) (ex : Instr → State → Host.Outcome State Fault Refusal) (s : State) :
    Host.Outcome State Fault Refusal :=
  match s.run with
  | .halted => .next s
  | .faulted => .next s
  | .running =>
    match fetchWith O s with
    | .error f => .next (s.raise f)
    | .ok i => ex i s

end Sys2Proof.Machine
end

