-- ==== Sys2Proof/Machine/Flags.lean ====
section
/-! DEFINITION. The one flag computation of the hardware, the unsigned comparison (42_alu.md R91), and the flags byte. -/

namespace Sys2Proof.Machine

/-- `FL` after comparing `a` with `b`, unsigned: exactly one flag is set (42_alu.md R91). -/
def compareFlags (a b : Byte) : Flags :=
  if a.toNat < b.toNat then { less := true, greater := false, equal := false }
  else if b.toNat < a.toNat then { less := false, greater := true, equal := false }
  else { less := false, greater := false, equal := true }

/-- The four values `FL` can have (10_state.md R14). -/
def Flags.legal (f : Flags) : Bool :=
  match f.less, f.greater, f.equal with
  | false, false, false => true
  | true, false, false => true
  | false, true, false => true
  | false, false, true => true
  | _, _, _ => false

/-- One flag shown at bit `k`. -/
def flagBit (b : Bool) (k : Fin 8) : Byte := if b then 1#8 <<< k.val else 0

/-- `FL` shown as a byte under a packing; the other bits are 0 (10_state.md R14). -/
def Flags.toByte (K : FlagPack) (f : Flags) : Byte :=
  flagBit f.less K.less ||| flagBit f.greater K.greater ||| flagBit f.equal K.equal

end Sys2Proof.Machine
end

