-- ==== Sys2Proof/WellFormed.lean ====
section
/-! DEFINITION. Well-formed instructions: every register operand names one of the eight registers. -/

namespace Sys2Proof

/-- An operand byte is a valid register index exactly when it is 0 to 7 (10_state.md R13, 30_encoding.md R55). -/
def validRegister (a : Byte) : Bool := decide (a.toNat < 8)

/-- Every register operand is valid. LDI's operand B is an immediate and is never refused (30_encoding.md R56,
41_load_immediate_and_print.md R85). An instruction that is not well formed still encodes, decodes and executes:
it then raises `AddressingError` (30_encoding.md R59). -/
def Instr.wf : Instr → Bool
  | .ldi a _ => validRegister a
  | .prn a => validRegister a
  | .hlt => true
  | .push a => validRegister a
  | .pop a => validRegister a
  | .call a => validRegister a
  | .ret => true
  | .add a b => validRegister a && validRegister b
  | .mul a b => validRegister a && validRegister b
  | .cmp a b => validRegister a && validRegister b

end Sys2Proof
end

