-- ==== Sys2Proof/Machine/Operands.lean ====
section
/-! DEFINITION. Operand access: the checked register accessors, and the stack pointer as the register `SP_INDEX`. -/

namespace Sys2Proof.Machine

/-- The register an operand byte selects: itself when it is 0 to 7; it is not masked (10_state.md R13). -/
def registerOf (a : Byte) : Option (Fin 8) :=
  if h : a.toNat < 8 then some ⟨a.toNat, h⟩ else none

/-- `x[a]`: checked register read (00_scope.md R8, 10_state.md R13). -/
def State.readReg (s : State) (a : Byte) : Except FaultRecord Byte :=
  match registerOf a with
  | some i => .ok (s.regs.get i)
  | none => .error (.addressingError .regRead (a.setWidth 9))

/-- `x[a] <- v`: checked register write (00_scope.md R8, 10_state.md R13). -/
def State.writeReg (s : State) (a : Byte) (v : Byte) : Except FaultRecord State :=
  match registerOf a with
  | some i => .ok (s.setReg i v)
  | none => .error (.addressingError .regWrite (a.setWidth 9))

/-- `SP`: register `SP_INDEX` (10_state.md R11). -/
def State.sp (P : Params) (s : State) : Byte := s.regs.get P.spIndex

/-- The address of the top of the stack, `SP` as an address; always 0 to 255 (43_stack.md R102). -/
def State.stackTop (P : Params) (s : State) : Addr := (s.sp P).setWidth 9

/-- `SP <- (SP - 1) mod 256` (43_stack.md R102; log entry 10). -/
def State.decSp (P : Params) (s : State) : State := s.setReg P.spIndex (s.sp P - 1)

/-- `SP <- (SP + 1) mod 256` (43_stack.md R102; log entry 10). -/
def State.incSp (P : Params) (s : State) : State := s.setReg P.spIndex (s.sp P + 1)

end Sys2Proof.Machine
end

