-- ==== Sys2Proof/Machine/Alu.lean ====
section
/-! DEFINITION. The ALU and its three instructions CMP, ADD and MUL (42_alu.md). -/

namespace Sys2Proof.Machine

/-- The ALU's operation selector (R90). -/
inductive AluOp where
  | add | multiply | compare
  deriving DecidableEq, Repr

/-- What the ALU puts out: a new register value or a new flags value (R90). -/
inductive AluResult where
  | value (v : Byte)
  | flags (f : Flags)
  deriving DecidableEq, Repr

/-- The ALU: a pure function of the selector and two register values; sums and products are modulo 256 (R90, R94). -/
def alu (op : AluOp) (a b : Byte) : AluResult :=
  match op with
  | .add => .value (a + b)
  | .multiply => .value (a * b)
  | .compare => .flags (compareFlags a b)

/-- An ALU instruction: both source registers are read (A before B), then the result is written to the register
`dest` or to `FL`; the sequencer adds 3 (R90 to R95; the order of the two checks is the spec's D8, log entry 8). -/
def aluRule (op : AluOp) (a b dest : Byte) (s : State) : Except FaultRecord State := do
  let x ← s.readReg a
  let y ← s.readReg b
  let t ← match alu op x y with
    | .value v => s.writeReg dest v
    | .flags f => .ok (s.setFlags f)
  return t.advance 2

/-- CMP `Ra Rb` (R91): no register is a destination. -/
def cmpRule (a b : Byte) (s : State) : Except FaultRecord State := aluRule .compare a b a s

/-- ADD `Ra Rb` (R92): the destination is operand A's register. -/
def addRule (a b : Byte) (s : State) : Except FaultRecord State := aluRule .add a b a s

/-- MUL `Ra Rb` (R93): the destination is register 0, whatever the operands. -/
def mulRule (a b : Byte) (s : State) : Except FaultRecord State := aluRule .multiply a b 0 s

/-- CMP: "ALU compare(A,B); updates flags" (R91). -/
def execCmp (a b : Byte) (s : State) : Host.Outcome State Fault Refusal := transact s (cmpRule a b s)

/-- ADD: "ALU add(A,B); register[A] ← sum" (R92). -/
def execAdd (a b : Byte) (s : State) : Host.Outcome State Fault Refusal := transact s (addRule a b s)

/-- MUL: "ALU multiply(A,B); register[0] ← product" (R93). -/
def execMul (a b : Byte) (s : State) : Host.Outcome State Fault Refusal := transact s (mulRule a b s)

end Sys2Proof.Machine
end

