-- ==== Sys2Proof/Machine/Halt.lean ====
section
/-! DEFINITION. HLT (45_halt.md). -/

namespace Sys2Proof.Machine

/-- HLT (R110): `RUN <- Halted`, `pc <- pc + HLT_PC_DELTA` (90_conflicts.md C6; log entry 6). -/
def hltRule (P : Params) (s : State) : Except FaultRecord State :=
  .ok (s.halt.setPc (s.pc + BitVec.ofNat 9 P.hltPcDelta.val))

/-- HLT: "transition to `Halted`" (R110). -/
def execHlt (s : State) : Host.Outcome State Fault Refusal := transact s (hltRule Config.params s)

end Sys2Proof.Machine
end

