-- ==== Sys2Proof/Machine/LoadPrint.lean ====
section
/-! DEFINITION. LDI and PRN (41_load_immediate_and_print.md). -/

namespace Sys2Proof.Machine

/-- LDI `Ra v` (R85), the execute phase and the sequencer's `pc + 3`. -/
def ldiRule (a v : Byte) (s : State) : Except FaultRecord State := do
  let t ← s.writeReg a v
  return t.advance 2

/-- PRN `Ra` (R87), the execute phase and the sequencer's `pc + 2`. -/
def prnRule (a : Byte) (s : State) : Except FaultRecord State := do
  let v ← s.readReg a
  return (s.emit v).advance 1

/-- LDI: "register[A] ← immediate B" (R85). -/
def execLdi (a v : Byte) (s : State) : Host.Outcome State Fault Refusal := transact s (ldiRule a v s)

/-- PRN: "emit register[A] value to output sink" (R87). -/
def execPrn (a : Byte) (s : State) : Host.Outcome State Fault Refusal := transact s (prnRule a s)

end Sys2Proof.Machine
end

