-- ==== Sys2Proof/Machine/Stack.lean ====
section
/-! DEFINITION. PUSH and POP (43_stack.md). The statements of each rule run in the order written, each seeing the
earlier ones, which decides the forms that name the stack pointer itself (R104, D20; log entry 15). -/

namespace Sys2Proof.Machine

/-- PUSH `Ra` (R100): decrement `SP`, read the register, store it at the new `SP`; the sequencer adds 2. -/
def pushRule (P : Params) (a : Byte) (s : State) : Except FaultRecord State := do
  let s := s.decSp P
  let v ← s.readReg a
  let s ← s.memWrite (s.stackTop P) v
  return s.advance 1

/-- POP `Ra` (R101): read the cell at `SP`, write the register, increment `SP`; the sequencer adds 2. -/
def popRule (P : Params) (a : Byte) (s : State) : Except FaultRecord State := do
  let v ← s.memRead (s.stackTop P)
  let s ← s.writeReg a v
  return (s.incSp P).advance 1

/-- PUSH: "SP ← SP−1; memory[SP] ← register[A]" (R100). -/
def execPush (a : Byte) (s : State) : Host.Outcome State Fault Refusal := transact s (pushRule Config.params a s)

/-- POP: "register[A] ← memory[SP]; SP ← SP+1" (R101). -/
def execPop (a : Byte) (s : State) : Host.Outcome State Fault Refusal := transact s (popRule Config.params a s)

end Sys2Proof.Machine
end

