-- ==== Sys2Proof/Machine/Subroutine.lean ====
section
/-! DEFINITION. CALL and RET (44_subroutine.md). They assign `pc` themselves. -/

namespace Sys2Proof.Machine

/-- CALL `Ra` (R105): a return address of 256 raises before anything is pushed (R108, D5; log entry 5); then push
`pc + 2`, then `pc <- R[a]`, read after the push (R109, D20; log entry 15). -/
def callRule (P : Params) (a : Byte) (s : State) : Except FaultRecord State :=
  let ra := s.pc.toNat + 2
  if 256 ≤ ra then .error (.addressingError .memWrite (BitVec.ofNat 9 ra))
  else do
    let s := s.decSp P
    let s ← s.memWrite (s.stackTop P) (BitVec.ofNat 8 ra)
    let t ← s.readReg a
    return s.setPc (t.setWidth 9)

/-- RET (R106): read the cell at `SP`, increment `SP`, `pc <-` the byte read. -/
def retRule (P : Params) (s : State) : Except FaultRecord State := do
  let t ← s.memRead (s.stackTop P)
  return (s.incSp P).setPc (t.setWidth 9)

/-- CALL: "push (pc+2) onto stack; pc ← register[A]" (R105). -/
def execCall (a : Byte) (s : State) : Host.Outcome State Fault Refusal := transact s (callRule Config.params a s)

/-- RET: "pop return address from stack into pc" (R106). -/
def execRet (s : State) : Host.Outcome State Fault Refusal := transact s (retRule Config.params s)

end Sys2Proof.Machine
end

