-- ==== Sys2Proof/Machine/Step.lean ====
section
/-! DEFINITION. The step function (40_fetch_decode_execute.md R70, R77): the cycle of Machine/Cycle.lean over `exec`. -/

namespace Sys2Proof.Machine

/-- "execute exactly one instruction and return the new state": `Step` at the default parameters (R77). -/
def step (s : State) : Host.Outcome State Fault Refusal := stepUsing Config.params.opc exec s

/-- `s` about to run the instruction of a table word: its bytes stand at `pc` (as far as the address space goes) and
the run state is `Running` with no fault record, as a step that executes needs (log entry 18). -/
def State.withFetchWord (s : State) (nbits w : Nat) : State :=
  { s.placeAtPc (tableBytes nbits w) with run := .running, fault := none }

end Sys2Proof.Machine
end

