-- ==== Sys2Proof/Machine/Control.lean ====
section
/-! DEFINITION. The host's controls: PowerOn, Load, Initialise, Step and Run (70_reset_and_hazards.md R140 to R149). -/

namespace Sys2Proof.Machine

/-- Initialise, the warm reset: every component but the memory takes its reset value (R141; log entry 12). -/
def State.initialiseWith (P : Params) (s : State) : State := { State.resetWith P with mem := s.mem }

/-- Initialise at the default parameters (R141). -/
def State.initialise (s : State) : State := s.initialiseWith Config.params

/-- The load port's effect: `M[k] <- IMAGE[k]` from address 0, nothing else (R144). -/
def State.load (s : State) (image : List Byte) : State := { s with mem := s.mem.place 0 image }

/-- The requests the host can make of the engine, one at a time (R146); `run` carries the harness's fuel (log entry
19). -/
inductive Control where
  | powerOn
  | load (image : List Byte)
  | initialise
  | step
  | run (fuel : Nat)
  deriving DecidableEq, Repr

/-- At most `fuel` steps; once the state is terminal the rest change nothing (40_fetch_decode_execute.md R70, R78). -/
def stepsFor (fuel : Nat) (s : State) : Host.Outcome State Fault Refusal :=
  match fuel with
  | 0 => .next s
  | k + 1 =>
    match step s with
    | .next t => stepsFor k t
    | .fault r => .fault r
    | .refused r => .refused r

/-- The machine together with the one thing the load port's contract depends on: whether a step has been requested
since the last reset (R144, R149; log entry 13). -/
structure Session where
  machine : State
  stepped : Bool
  deriving DecidableEq, Repr

/-- One request at a step boundary (R146). A load of more than 256 bytes, or during a run, is refused (R144, R149).
DESIGN CHOICE: the load happens "once, before execution" (R144), and the spec does not say what a second load between reset
and the first step does; the model accepts it and lays it over what the first one placed (log entry 13). -/
def Session.request (x : Session) (c : Control) : Host.Outcome Session Fault Refusal :=
  match c with
  | .powerOn => .next { machine := State.reset, stepped := false }
  | .initialise => .next { machine := x.machine.initialise, stepped := false }
  | .load image =>
    if x.stepped then .refused .loadDuringRun
    else if image.length ≤ 256 then .next { x with machine := x.machine.load image }
    else .refused (.imageTooLong image.length)
  | .step =>
    match step x.machine with
    | .next t => .next { machine := t, stepped := true }
    | .fault r => .fault r
    | .refused r => .refused r
  | .run fuel =>
    match stepsFor fuel x.machine with
    | .next t => .next { machine := t, stepped := true }
    | .fault r => .fault r
    | .refused r => .refused r

/-- Requests one after the other, stopping at the first refusal. -/
def Session.requests (x : Session) (cs : List Control) : Host.Outcome Session Fault Refusal :=
  match cs with
  | [] => .next x
  | c :: rest =>
    match x.request c with
    | .next y => Session.requests y rest
    | .fault r => .fault r
    | .refused r => .refused r

/-- The end of a run: `Step` repeated until `RUN` is not `Running` (40_fetch_decode_execute.md R78, R80), under fuel; `none` when
the fuel ends first (log entry 19). -/
def runToEnd (fuel : Nat) (s : State) : Option State :=
  match s.run, fuel with
  | .halted, _ => some s
  | .faulted, _ => some s
  | .running, 0 => none
  | .running, fuel + 1 =>
    match step s with
    | .next t => runToEnd fuel t
    | .fault _ => none
    | .refused _ => none

end Sys2Proof.Machine
end

