-- ==== Sys2Proof/Machine/Parametric.lean ====
section
/-! DEFINITION. The machine under any parameters (00_scope.md R5), for claims that hold for every reading of the source.
`exec` and `step` are its case `Config.params` (Laws/Rules.lean). -/

namespace Sys2Proof.Machine

/-- The ten execute rules under given parameters, phases 4 and 5 of the step (40_fetch_decode_execute.md R75, R76). -/
def execRule (P : Params) (i : Instr) (s : State) : Except FaultRecord State :=
  match i with
  | .ldi a v => ldiRule a v s
  | .prn a => prnRule a s
  | .hlt => hltRule P s
  | .push a => pushRule P a s
  | .pop a => popRule P a s
  | .call a => callRule P a s
  | .ret => retRule P s
  | .add a b => addRule a b s
  | .mul a b => mulRule a b s
  | .cmp a b => cmpRule a b s

/-- One instruction at one state under given parameters; `exec` is its case `Config.params`
(`exec_eq_execWith`, Laws/Rules.lean). -/
def execWith (P : Params) (i : Instr) (s : State) : Host.Outcome State Fault Refusal := transact s (execRule P i s)

/-- `Step` under given parameters, for claims that hold for every reading of the source (00_scope.md R5). -/
def stepWith (P : Params) (s : State) : Host.Outcome State Fault Refusal := stepUsing P.opc (execWith P) s

end Sys2Proof.Machine
end

