-- ==== Sys2Proof/Machine/Status.lean ====
section
/-! DEFINITION. The status and observation port (70_reset_and_hazards.md R148) with the codes of 60_exceptions.md R121. -/

namespace Sys2Proof.Machine

/-- The numeric code of an access (60_exceptions.md R121, D9; log entry 9). -/
def Access.code : Access → BitVec 2
  | .regRead => 0
  | .regWrite => 1
  | .memRead => 2
  | .memWrite => 3

/-- The cause code: 0 no fault, 1 `DecodeError`, 2 `AddressingError` (60_exceptions.md R121). -/
def causeCode : Option FaultRecord → BitVec 2
  | none => 0
  | some (.decodeError _ _) => 1
  | some (.addressingError _ _) => 2

/-- The two information values of a fault record: opcode byte and fetch address, or operation code and offending index
or address (60_exceptions.md R121). -/
inductive FaultInfo where
  | decode (opcode : Byte) (addr : Byte)
  | addressing (op : BitVec 2) (value : BitVec 9)
  deriving DecidableEq, Repr

/-- The information values the status port shows. -/
def faultInfo : Option FaultRecord → Option FaultInfo
  | none => none
  | some (.decodeError opcode addr) => some (.decode opcode addr)
  | some (.addressingError op value) => some (.addressing op.code value)

/-- What the host reads between steps (70_reset_and_hazards.md R148); the flags also as the byte of `FL_PACK`. -/
structure Observation where
  run : RunState
  cause : BitVec 2
  info : Option FaultInfo
  out : List Byte
  registers : List Byte
  flags : Flags
  flagsByte : Byte
  pc : Addr
  memory : List Byte
  deriving DecidableEq, Repr

/-- The observation of a state; reading changes nothing (R148). -/
def State.observe (P : Params) (s : State) : Observation where
  run := s.run
  cause := causeCode s.fault
  info := faultInfo s.fault
  out := s.out
  registers := (List.finRange 8).map s.regs.get
  flags := s.flags
  flagsByte := s.flags.toByte P.flPack
  pc := s.pc
  memory := (List.range 256).map s.mem.read

end Sys2Proof.Machine
end

