-- ==== Sys2Proof/Safety.lean ====
section
/-! DEFINITION. What claims are stated in: the safe states, and the invariant of every reachable state (10_state.md R26). -/

namespace Sys2Proof.Machine

/-- A model's safety predicate: "`RUN` is not `Faulted`" (60_exceptions.md R125). -/
def State.safe (s : State) : Bool := s.run != .faulted

/-- What a fault record can say in a reachable state (10_state.md R20): an unknown opcode byte; a register index 8 to
255; the memory address 256. -/
def FaultRecord.legal (O : OpcodeMap) : FaultRecord → Bool
  | .decodeError opcode _ => (decodeOpcode O opcode).isNone
  | .addressingError .regRead v => decide (8 ≤ v.toNat) && decide (v.toNat < 256)
  | .addressingError .regWrite v => decide (8 ≤ v.toNat) && decide (v.toNat < 256)
  | .addressingError .memRead v => decide (v.toNat = 256)
  | .addressingError .memWrite v => decide (v.toNat = 256)

/-- The fault record is present exactly when the run state is `Faulted`, and is a legal one (10_state.md R20, R26). -/
def State.faultConsistent (O : OpcodeMap) (s : State) : Bool :=
  match s.run, s.fault with
  | .faulted, some f => f.legal O
  | .faulted, none => false
  | .running, none => true
  | .halted, none => true
  | _, some _ => false

/-- The invariant of 10_state.md R26, under given parameters: memory in canonical form (so 256 cells of a byte), `FL`
one of its four values, `pc` at most 256, and `FAULT` present exactly in `Faulted`. -/
def State.invariant (P : Params) (s : State) : Bool :=
  s.mem.wf && s.flags.legal && decide (s.pc.toNat ≤ 256) && s.faultConsistent P.opc

end Sys2Proof.Machine
end

