-- ==== Sys2Proof/Certificates/Slice0/Obligations.lean ====
section
/-! DEFINITION. The statements for the provers. `Config.params.spIndex` is the stack pointer's index; a statement over
`P : Params` holds for every reading of the source (00_scope.md R5). Wherever `Memory.wf` stands, the canonical form of the
memory list is the model's own representation (log entry 20), no rule of the spec. -/

open Sys2Proof Sys2Proof.Machine

/-! ### Encoding -/

/-- Decoding an encoded instruction gives it back, with every operand byte, under every opcode map that meets the
constraints of 30_encoding.md R52 (high nibbles, ten distinct bytes), whatever bytes follow. -/
def Obligations.DecodeOfEncodeIsIdentity : Prop :=
  ∀ (O : OpcodeMap), O.wf = true → ∀ (i : Instr) (rest : List Byte),
    decodeWith O (encodeWith O i ++ rest) = .ok (i, rest)

/-- Whatever the decoder accepts is the encoding of what it answers, followed by what it leaves: each byte sequence has
one meaning (30_encoding.md section 3). -/
def Obligations.EncodeOfDecodeIsIdentity : Prop :=
  ∀ (O : OpcodeMap), O.wf = true → ∀ (bytes : List Byte) (i : Instr) (rest : List Byte),
    decodeWith O bytes = .ok (i, rest) → bytes = encodeWith O i ++ rest

/-- 30_encoding.md R54: decoding is exact match of the whole opcode byte, with `n` its bits 7 to 6, and fails on every
other byte. -/
def Obligations.OpcodeMatchIsExact : Prop :=
  ∀ (O : OpcodeMap), O.wf = true → ∀ (ir : Byte),
    (∀ m : Mnemonic, decodeOpcode O ir = some m ↔ O.byte m = ir) ∧
    (decodeOpcode O ir = none ↔ ∀ m : Mnemonic, O.byte m ≠ ir) ∧
    operandCount ir = ir.toNat / 64 ∧
    (∀ (a b : Byte) (rest : List Byte), (decodeWith O (ir :: a :: b :: rest) = .error (.unknownOpcode ir) ↔
      ∀ m : Mnemonic, O.byte m ≠ ir)) ∧
    (∀ m : Mnemonic, O.byte m = ir → ∀ (a b : Byte) (rest : List Byte), ∃ i,
      decodeWith O (ir :: a :: b :: rest) = .ok (i, (a :: b :: rest).drop (ir.toNat / 64)) ∧ i.mnemonic = m)

/-- A few words written out from the formats of 30_encoding.md section 1 under the default opcode bytes, which are from
general knowledge (D2, log entry 1). -/
def Obligations.WordsWrittenOutDecode : Prop :=
  decode [0b10000010, 0b00000011, 0b11111110] = .ok (.ldi 3 254, []) ∧
  decode [0b01000111, 0b00000111] = .ok (.prn 7, []) ∧
  decode [0b10100111, 0b00000001, 0b00000010] = .ok (.cmp 1 2, []) ∧
  decode [0b01000101, 0b00000100] = .ok (.push 4, []) ∧
  decode [0b01010000, 0b00000110] = .ok (.call 6, []) ∧
  decode [0b00000001] = .ok (.hlt, [])

/-! ### The step -/

/-- When the bytes at `pc` decode to `i`, a step of a running state is `exec i` (40_fetch_decode_execute.md, section 3).
The step adds nothing around `exec`: `exec` itself assigns the next `pc`. -/
def Obligations.StepRunsDecodedInstruction : Prop :=
  ∀ (s : State) (i : Instr) (rest : List Byte),
    s.run = .running → decode s.fetchWindow = .ok (i, rest) → step s = exec i s

/-- When the bytes of the encoding of `i` stand at `pc` and all lie in memory, a step of a running state is the execution
of `i`, for every instruction and every admissible opcode map. -/
def Obligations.StepRunsTheInstructionAtPc : Prop :=
  ∀ (P : Params), P.opc.wf = true → ∀ (i : Instr) (s : State), s.run = .running →
    s.pc.toNat + (encodeWith P.opc i).length ≤ 256 →
    (∀ (k : Nat) (hk : k < (encodeWith P.opc i).length), s.mem.read (s.pc.toNat + k) = (encodeWith P.opc i)[k]) →
    stepWith P s = execWith P i s

/-- `Halted` and `Faulted` are terminal: any number of step requests changes nothing (40_fetch_decode_execute.md section
1; that a step there returns the state is the spec's decision D11, log entry 11). -/
def Obligations.TerminalStatesNeverChange : Prop :=
  ∀ (s : State), s.run ≠ .running →
    (∀ P : Params, stepWith P s = .next s) ∧ ∀ n : Nat, core.run n s = .next s

/-- 60_exceptions.md R120: a byte that is none of the ten opcodes raises `DecodeError` with that byte and its address,
at any `pc` from 0 to 255; a step that leaves that fault from a state without one had such a byte at `pc`. -/
def Obligations.UnknownOpcodeRaisesDecodeError : Prop :=
  (∀ (P : Params) (s : State), s.run = .running → s.pc.toNat < 256 →
    (∀ m : Mnemonic, P.opc.byte m ≠ s.mem.read s.pc.toNat) →
    stepWith P s = .next (s.raise (.decodeError (s.mem.read s.pc.toNat) (BitVec.ofNat 8 s.pc.toNat)))) ∧
  (∀ (P : Params) (s t : State) (opcode addr : Byte), s.run = .running → s.fault = none →
    stepWith P s = .next t → t.fault = some (.decodeError opcode addr) →
    opcode = s.mem.read s.pc.toNat ∧ addr.toNat = s.pc.toNat ∧ ∀ m : Mnemonic, P.opc.byte m ≠ opcode)

/-- Fetches past the top of memory raise, never wrap: the opcode fetch at 256, operand A when the opcode is at 255,
operand B when it is at 254 (40_fetch_decode_execute.md section 2; the 9-bit `pc` is the spec's decision D4, log
entry 4). -/
def Obligations.FetchPastTheTopRaises : Prop :=
  ∀ (P : Params), P.opc.wf = true → ∀ (s : State), s.run = .running →
    (s.pc.toNat = 256 → stepWith P s = .next (s.raise (.addressingError .memRead 256))) ∧
    (∀ m : Mnemonic, P.opc.byte m = s.mem.read s.pc.toNat →
      (s.pc.toNat = 255 → 1 ≤ operandCount (P.opc.byte m) →
        stepWith P s = .next (s.raise (.addressingError .memRead 256))) ∧
      (s.pc.toNat = 254 → operandCount (P.opc.byte m) = 2 →
        stepWith P s = .next (s.raise (.addressingError .memRead 256))))

/-- The step is total: every state has a next one (40_fetch_decode_execute.md section 3). -/
def Obligations.EveryStepAnswersNext : Prop :=
  ∀ (P : Params) (s : State), ∃ t : State, stepWith P s = .next t

/-- After a step from `Running` exactly one of three things holds: an instruction other than HLT completed and the engine
still runs; HLT executed and it is halted; a phase raised and it is faulted, with the rest of the state as it was
(40_fetch_decode_execute.md section 1; that a raise discards every write is the spec's decision D7, log entry 7). -/
def Obligations.StepEndsInOneOfThreeWays : Prop :=
  ∀ (P : Params) (s t : State), s.run = .running → s.fault = none → stepWith P s = .next t →
    (t.run = .running ∧ t.fault = none ∧ ∃ i, fetchWith P.opc s = .ok i ∧ i ≠ .hlt) ∨
    (t.run = .halted ∧ t.fault = none ∧ fetchWith P.opc s = .ok .hlt) ∨
    (t.run = .faulted ∧ ∃ f, t.fault = some f ∧ t.regs = s.regs ∧ t.flags = s.flags ∧ t.pc = s.pc ∧
      t.mem = s.mem ∧ t.out = s.out)

/-- A step of a running state stays out of `Faulted` exactly when its instruction can be fetched, names only valid
registers, and is not a CALL whose return address is past 255: the complete list of fault places (60_exceptions.md
section 1; the CALL row is the spec's decision D5, log entry 5). -/
def Obligations.StepIsSafeExactlyWhen : Prop :=
  ∀ (P : Params) (s t : State), s.run = .running → stepWith P s = .next t →
    (t.safe = true ↔ ∃ i, fetchWith P.opc s = .ok i ∧ i.wf = true ∧ ∀ a, i = .call a → s.pc.toNat < 254)

/-- When several faults could be raised, the first in the order of the phases is: operand fetch before register checks,
operand A before operand B, CALL's return address before its register (60_exceptions.md sections 1 and 3; the order
inside the execute phase is the spec's decision D8, log entry 8; that a fetch at 256 raises is D4, log entry 4, and that a
CALL whose return address is 256 raises is D5, log entry 5). -/
def Obligations.FirstFaultIsReported : Prop :=
  (∀ (s : State) (a : Byte), s.run = .running → s.pc.toNat = 254 → 8 ≤ a.toNat →
    (s.mem.read 254 = Config.params.opc.cmp ∨ s.mem.read 254 = Config.params.opc.add ∨
      s.mem.read 254 = Config.params.opc.mul ∨ s.mem.read 254 = Config.params.opc.ldi) → s.mem.read 255 = a →
    step s = .next (s.raise (.addressingError .memRead 256))) ∧
  (∀ (s : State) (a b : Byte), 8 ≤ a.toNat →
    exec (.cmp a b) s = .next (s.raise (.addressingError .regRead (a.setWidth 9))) ∧
    exec (.add a b) s = .next (s.raise (.addressingError .regRead (a.setWidth 9))) ∧
    exec (.mul a b) s = .next (s.raise (.addressingError .regRead (a.setWidth 9)))) ∧
  (∀ (s : State) (a b : Byte), a.toNat < 8 → 8 ≤ b.toNat →
    exec (.cmp a b) s = .next (s.raise (.addressingError .regRead (b.setWidth 9))) ∧
    exec (.add a b) s = .next (s.raise (.addressingError .regRead (b.setWidth 9))) ∧
    exec (.mul a b) s = .next (s.raise (.addressingError .regRead (b.setWidth 9)))) ∧
  (∀ (s : State) (a : Byte), s.pc.toNat = 254 → 8 ≤ a.toNat →
    exec (.call a) s = .next (s.raise (.addressingError .memWrite 256)))

/-! ### The instructions: result, completion and faults -/

/-- 41_load_immediate_and_print.md R85: LDI. -/
def Obligations.LdiLoadsImmediate : Prop :=
  ∀ (a v : Byte) (s : State),
    (∀ O : OpcodeMap, encodeWith O (.ldi a v) = [O.ldi, a, v]) ∧
    (∀ h : a.toNat < 8, ∃ t, exec (.ldi a v) s = .next t ∧ t.regs.get ⟨a.toNat, h⟩ = v ∧
      (∀ j : Fin 8, j.val ≠ a.toNat → t.regs.get j = s.regs.get j) ∧ t.pc = s.pc + 3 ∧ t.flags = s.flags ∧
      t.mem = s.mem ∧ t.out = s.out ∧ t.run = s.run ∧ t.fault = s.fault) ∧
    (8 ≤ a.toNat → exec (.ldi a v) s = .next (s.raise (.addressingError .regWrite (a.setWidth 9)))) ∧
    (s.run = .running → s.mem.read s.pc.toNat = Config.params.opc.ldi → s.pc.toNat = 254 ∨ s.pc.toNat = 255 →
      step s = .next (s.raise (.addressingError .memRead 256)))

/-- 41_load_immediate_and_print.md R87: PRN. -/
def Obligations.PrnEmitsRegister : Prop :=
  ∀ (a : Byte) (s : State),
    (∀ O : OpcodeMap, encodeWith O (.prn a) = [O.prn, a]) ∧
    (∀ h : a.toNat < 8, ∃ t, exec (.prn a) s = .next t ∧ t.out = s.out ++ [s.regs.get ⟨a.toNat, h⟩] ∧
      t.regs = s.regs ∧ t.pc = s.pc + 2 ∧ t.flags = s.flags ∧ t.mem = s.mem ∧ t.run = s.run ∧ t.fault = s.fault) ∧
    (8 ≤ a.toNat → exec (.prn a) s = .next (s.raise (.addressingError .regRead (a.setWidth 9)))) ∧
    (s.run = .running → s.mem.read s.pc.toNat = Config.params.opc.prn → s.pc.toNat = 255 →
      step s = .next (s.raise (.addressingError .memRead 256)))

/-- 42_alu.md R92: ADD. -/
def Obligations.AddWrapsModulo256 : Prop :=
  ∀ (a b : Byte) (s : State),
    (∀ O : OpcodeMap, encodeWith O (.add a b) = [O.add, a, b]) ∧
    (∀ (ha : a.toNat < 8) (hb : b.toNat < 8), ∃ t, exec (.add a b) s = .next t ∧
      (t.regs.get ⟨a.toNat, ha⟩).toNat =
        ((s.regs.get ⟨a.toNat, ha⟩).toNat + (s.regs.get ⟨b.toNat, hb⟩).toNat) % 256 ∧
      (∀ j : Fin 8, j.val ≠ a.toNat → t.regs.get j = s.regs.get j) ∧ t.pc = s.pc + 3 ∧ t.flags = s.flags ∧
      t.mem = s.mem ∧ t.out = s.out ∧ t.run = s.run ∧ t.fault = s.fault) ∧
    (8 ≤ a.toNat → exec (.add a b) s = .next (s.raise (.addressingError .regRead (a.setWidth 9)))) ∧
    (a.toNat < 8 → 8 ≤ b.toNat →
      exec (.add a b) s = .next (s.raise (.addressingError .regRead (b.setWidth 9)))) ∧
    (s.run = .running → s.mem.read s.pc.toNat = Config.params.opc.add → s.pc.toNat = 254 ∨ s.pc.toNat = 255 →
      step s = .next (s.raise (.addressingError .memRead 256)))

/-- 42_alu.md R93: MUL, whose destination is always register 0. -/
def Obligations.MulWritesRegisterZero : Prop :=
  ∀ (a b : Byte) (s : State),
    (∀ O : OpcodeMap, encodeWith O (.mul a b) = [O.mul, a, b]) ∧
    (∀ (ha : a.toNat < 8) (hb : b.toNat < 8), ∃ t, exec (.mul a b) s = .next t ∧
      (t.regs.get 0).toNat =
        ((s.regs.get ⟨a.toNat, ha⟩).toNat * (s.regs.get ⟨b.toNat, hb⟩).toNat) % 256 ∧
      (∀ j : Fin 8, j ≠ 0 → t.regs.get j = s.regs.get j) ∧ t.pc = s.pc + 3 ∧ t.flags = s.flags ∧
      t.mem = s.mem ∧ t.out = s.out ∧ t.run = s.run ∧ t.fault = s.fault) ∧
    (8 ≤ a.toNat → exec (.mul a b) s = .next (s.raise (.addressingError .regRead (a.setWidth 9)))) ∧
    (a.toNat < 8 → 8 ≤ b.toNat →
      exec (.mul a b) s = .next (s.raise (.addressingError .regRead (b.setWidth 9)))) ∧
    (s.run = .running → s.mem.read s.pc.toNat = Config.params.opc.mul → s.pc.toNat = 254 ∨ s.pc.toNat = 255 →
      step s = .next (s.raise (.addressingError .memRead 256)))

/-- CMP assigns the whole of `FL`, exactly one flag, by the unsigned comparison, and writes no register (42_alu.md, CMP;
its fault order is the spec's decision D8 and stands in `FirstFaultIsReported`). -/
def Obligations.CmpSetsExactlyOneFlag : Prop :=
  ∀ (a b : Byte) (s : State) (ha : a.toNat < 8) (hb : b.toNat < 8), ∃ t, exec (.cmp a b) s = .next t ∧
    (t.flags.less = true ↔ (s.regs.get ⟨a.toNat, ha⟩).toNat < (s.regs.get ⟨b.toNat, hb⟩).toNat) ∧
    (t.flags.greater = true ↔ (s.regs.get ⟨b.toNat, hb⟩).toNat < (s.regs.get ⟨a.toNat, ha⟩).toNat) ∧
    (t.flags.equal = true ↔ s.regs.get ⟨a.toNat, ha⟩ = s.regs.get ⟨b.toNat, hb⟩) ∧
    t.regs = s.regs ∧ t.pc = s.pc + 3 ∧ t.mem = s.mem ∧ t.out = s.out ∧ t.run = s.run ∧ t.fault = s.fault

/-- 43_stack.md R100: PUSH of a register that is not the stack pointer (that one: `StackPointerAsOperand`). The address
stored to is the top of the stack after the decrement, the meaning's own function. -/
def Obligations.PushStoresBelowStackPointer : Prop :=
  ∀ (a : Byte) (s : State), s.mem.wf = true →
    (∀ O : OpcodeMap, encodeWith O (.push a) = [O.push, a]) ∧
    (∀ h : a.toNat < 8, a.toNat ≠ Config.params.spIndex.val → ∃ t, exec (.push a) s = .next t ∧
      (t.sp Config.params).toNat = ((s.sp Config.params).toNat + 255) % 256 ∧
      t.mem.read (t.sp Config.params).toNat = s.regs.get ⟨a.toNat, h⟩ ∧
      (∀ x : Nat, x ≠ ((s.decSp Config.params).stackTop Config.params).toNat → t.mem.read x = s.mem.read x) ∧
      ((s.decSp Config.params).stackTop Config.params).toNat = (t.sp Config.params).toNat ∧
      (∀ j : Fin 8, j ≠ Config.params.spIndex → t.regs.get j = s.regs.get j) ∧
      t.pc = s.pc + 2 ∧ t.flags = s.flags ∧ t.out = s.out ∧ t.run = s.run ∧ t.fault = s.fault) ∧
    (8 ≤ a.toNat → exec (.push a) s = .next (s.raise (.addressingError .regRead (a.setWidth 9)))) ∧
    (s.run = .running → s.mem.read s.pc.toNat = Config.params.opc.push → s.pc.toNat = 255 →
      step s = .next (s.raise (.addressingError .memRead 256)))

/-- 43_stack.md R101: POP into a register that is not the stack pointer (that one: `StackPointerAsOperand`). -/
def Obligations.PopLoadsTopOfStack : Prop :=
  ∀ (a : Byte) (s : State),
    (∀ O : OpcodeMap, encodeWith O (.pop a) = [O.pop, a]) ∧
    (∀ h : a.toNat < 8, a.toNat ≠ Config.params.spIndex.val → ∃ t, exec (.pop a) s = .next t ∧
      t.regs.get ⟨a.toNat, h⟩ = s.mem.read (s.sp Config.params).toNat ∧
      (t.sp Config.params).toNat = ((s.sp Config.params).toNat + 1) % 256 ∧
      (∀ j : Fin 8, j.val ≠ a.toNat → j ≠ Config.params.spIndex → t.regs.get j = s.regs.get j) ∧
      t.pc = s.pc + 2 ∧ t.flags = s.flags ∧ t.mem = s.mem ∧ t.out = s.out ∧ t.run = s.run ∧ t.fault = s.fault) ∧
    (8 ≤ a.toNat → exec (.pop a) s = .next (s.raise (.addressingError .regWrite (a.setWidth 9)))) ∧
    (s.run = .running → s.mem.read s.pc.toNat = Config.params.opc.pop → s.pc.toNat = 255 →
      step s = .next (s.raise (.addressingError .memRead 256)))

/-- PUSH, POP and CALL naming the stack pointer's own register follow the statements in their order: PUSH stores the
decremented pointer, POP leaves the popped byte plus 1, CALL jumps to the decremented pointer; every other register, the
flags, the output, `RUN` and `FAULT` stay, and so does every byte but the one stored (43_stack.md and 44_subroutine.md, the
rules on that operand; the order is the spec's decision D20, log entry 15). -/
def Obligations.StackPointerAsOperand : Prop :=
  ∀ (P : Params) (a : Byte) (s : State), a.toNat = P.spIndex.val → s.mem.wf = true →
    (∃ t, execWith P (.push a) s = .next t ∧ t.sp P = s.sp P - 1 ∧ t.mem.read (t.sp P).toNat = s.sp P - 1 ∧
      (∀ x : Nat, x ≠ (t.sp P).toNat → t.mem.read x = s.mem.read x) ∧
      (∀ j : Fin 8, j ≠ P.spIndex → t.regs.get j = s.regs.get j) ∧ t.pc = s.pc + 2 ∧
      t.flags = s.flags ∧ t.out = s.out ∧ t.run = s.run ∧ t.fault = s.fault) ∧
    (∃ t, execWith P (.pop a) s = .next t ∧ t.sp P = s.mem.read (s.sp P).toNat + 1 ∧ t.mem = s.mem ∧
      (∀ j : Fin 8, j ≠ P.spIndex → t.regs.get j = s.regs.get j) ∧ t.pc = s.pc + 2 ∧
      t.flags = s.flags ∧ t.out = s.out ∧ t.run = s.run ∧ t.fault = s.fault) ∧
    (s.pc.toNat < 254 → ∃ t, execWith P (.call a) s = .next t ∧ t.sp P = s.sp P - 1 ∧
      t.pc.toNat = (s.sp P - 1).toNat ∧ (t.mem.read (t.sp P).toNat).toNat = s.pc.toNat + 2 ∧
      (∀ x : Nat, x ≠ (t.sp P).toNat → t.mem.read x = s.mem.read x) ∧
      (∀ j : Fin 8, j ≠ P.spIndex → t.regs.get j = s.regs.get j) ∧
      t.flags = s.flags ∧ t.out = s.out ∧ t.run = s.run ∧ t.fault = s.fault)

/-- CALL below address 254 pushes `pc + 2` and jumps to the register's value; the register is read after the push, which
matters only for the stack pointer's own register (44_subroutine.md, CALL; that order is D20, log entry 15). -/
def Obligations.CallPushesReturnAddress : Prop :=
  ∀ (a : Byte) (s : State), s.mem.wf = true → s.pc.toNat < 254 → ∀ h : a.toNat < 8,
    ∃ t, exec (.call a) s = .next t ∧
      (t.sp Config.params).toNat = ((s.sp Config.params).toNat + 255) % 256 ∧
      (t.mem.read (t.sp Config.params).toNat).toNat = s.pc.toNat + 2 ∧
      (∀ x : Nat, x ≠ ((s.decSp Config.params).stackTop Config.params).toNat → t.mem.read x = s.mem.read x) ∧
      ((s.decSp Config.params).stackTop Config.params).toNat = (t.sp Config.params).toNat ∧
      t.pc.toNat = (t.regs.get ⟨a.toNat, h⟩).toNat ∧
      (∀ j : Fin 8, j ≠ Config.params.spIndex → t.regs.get j = s.regs.get j) ∧
      t.flags = s.flags ∧ t.out = s.out ∧ t.run = s.run ∧ t.fault = s.fault

/-- CALL at 254, whose return address would be 256, raises and pushes nothing; a CALL naming no register raises below it
(44_subroutine.md, laws and corner rules; the spec's decision D5, log entry 5). -/
def Obligations.CallFaults : Prop :=
  ∀ (a : Byte) (s : State),
    (s.pc.toNat = 254 → exec (.call a) s = .next (s.raise (.addressingError .memWrite 256))) ∧
    (s.pc.toNat < 254 → 8 ≤ a.toNat →
      exec (.call a) s = .next (s.raise (.addressingError .regRead (a.setWidth 9))))

/-- 44_subroutine.md R106: RET. -/
def Obligations.RetPopsProgramCounter : Prop :=
  ∀ (s : State),
    (∀ O : OpcodeMap, encodeWith O .ret = [O.ret]) ∧
    ∃ t, exec .ret s = .next t ∧ t.pc.toNat = (s.mem.read (s.sp Config.params).toNat).toNat ∧
      (t.sp Config.params).toNat = ((s.sp Config.params).toNat + 1) % 256 ∧
      (∀ j : Fin 8, j ≠ Config.params.spIndex → t.regs.get j = s.regs.get j) ∧
      t.flags = s.flags ∧ t.mem = s.mem ∧ t.out = s.out ∧ t.run = s.run ∧ t.fault = s.fault

/-- HLT halts and changes nothing else but `pc`, by `HLT_PC_DELTA` (45_halt.md; whether it is 0 or 1 is open, the default
0 is the choice of 90_conflicts.md C6 and D6, log entry 6). -/
def Obligations.HltHalts : Prop :=
  (∀ (P : Params) (s : State), ∃ t, execWith P .hlt s = .next t ∧ t.run = .halted ∧
    t.pc = s.pc + BitVec.ofNat 9 P.hltPcDelta.val ∧ t.regs = s.regs ∧ t.flags = s.flags ∧ t.mem = s.mem ∧
    t.out = s.out ∧ t.fault = s.fault) ∧
  (∀ s : State, ∃ t, exec .hlt s = .next t ∧ t.run = .halted ∧ t.pc = s.pc ∧ t.regs = s.regs ∧ t.flags = s.flags ∧
    t.mem = s.mem ∧ t.out = s.out ∧ t.fault = s.fault)

/-! ### Frames, faults included -/

/-- LDI, PRN, ADD, MUL, CMP and HLT store nothing, whether they complete or raise: every byte reads as before. Their
register frames: LDI and ADD change at most register A, MUL register 0, the others none. Only CMP may change a flag,
only PRN the output (10_state.md sections 1 and 2; 20_memory.md section 2). -/
def Obligations.FrameOfInstructionsThatStoreNothing : Prop :=
  ∀ (i : Instr) (s t : State), exec i s = .next t →
    (∀ a v, i = .ldi a v → (∀ j : Fin 8, j.val ≠ a.toNat → t.regs.get j = s.regs.get j) ∧ t.flags = s.flags ∧
      t.out = s.out ∧ ∀ x, t.mem.read x = s.mem.read x) ∧
    (∀ a, i = .prn a → t.regs = s.regs ∧ t.flags = s.flags ∧ ∀ x, t.mem.read x = s.mem.read x) ∧
    (∀ a b, i = .add a b → (∀ j : Fin 8, j.val ≠ a.toNat → t.regs.get j = s.regs.get j) ∧ t.flags = s.flags ∧
      t.out = s.out ∧ ∀ x, t.mem.read x = s.mem.read x) ∧
    (∀ a b, i = .mul a b → (∀ j : Fin 8, j ≠ 0 → t.regs.get j = s.regs.get j) ∧ t.flags = s.flags ∧
      t.out = s.out ∧ ∀ x, t.mem.read x = s.mem.read x) ∧
    (∀ a b, i = .cmp a b → t.regs = s.regs ∧ t.out = s.out ∧ ∀ x, t.mem.read x = s.mem.read x) ∧
    (i = .hlt → t.regs = s.regs ∧ t.flags = s.flags ∧ t.out = s.out ∧ ∀ x, t.mem.read x = s.mem.read x)

/-- PUSH, CALL, POP and RET, whether they complete or raise, leave the flags and the output; PUSH, CALL and RET change no
register but the stack pointer, POP none but its operand and the stack pointer; PUSH and CALL leave every byte outside
the one at the top of the stack after the decrement, POP and RET every byte (10_state.md section 1; 20_memory.md
section 2; 90_conflicts.md C3). -/
def Obligations.FrameOfStackInstructions : Prop :=
  ∀ (i : Instr) (s t : State), exec i s = .next t →
    (∀ a, i = .push a ∨ i = .call a → (∀ j : Fin 8, j ≠ Config.params.spIndex → t.regs.get j = s.regs.get j) ∧
      t.flags = s.flags ∧ t.out = s.out ∧ ∀ x : Nat,
        x ≠ ((s.decSp Config.params).stackTop Config.params).toNat → t.mem.read x = s.mem.read x) ∧
    (∀ a, i = .pop a → (∀ j : Fin 8, j.val ≠ a.toNat → j ≠ Config.params.spIndex → t.regs.get j = s.regs.get j) ∧
      t.flags = s.flags ∧ t.out = s.out ∧ ∀ x : Nat, t.mem.read x = s.mem.read x) ∧
    (i = .ret → (∀ j : Fin 8, j ≠ Config.params.spIndex → t.regs.get j = s.regs.get j) ∧
      t.flags = s.flags ∧ t.out = s.out ∧ ∀ x : Nat, t.mem.read x = s.mem.read x)

/-! ### Registers, memory and arithmetic -/

/-- 10_state.md R13: an index is valid exactly when it is 0 to 7; any other makes the accessor raise, and is neither
masked nor ignored; the implicit accesses to `SP` never raise. -/
def Obligations.RegisterIndexIsCheckedNotMasked : Prop :=
  (∀ (s : State) (a v : Byte),
    (∀ h : a.toNat < 8, s.readReg a = .ok (s.regs.get ⟨a.toNat, h⟩) ∧
      s.writeReg a v = .ok (s.setReg ⟨a.toNat, h⟩ v)) ∧
    (8 ≤ a.toNat → s.readReg a = .error (.addressingError .regRead (a.setWidth 9)) ∧
      s.writeReg a v = .error (.addressingError .regWrite (a.setWidth 9)))) ∧
  (∀ (P : Params) (s : State) (v : Byte), s.readReg (BitVec.ofNat 8 P.spIndex.val) = .ok (s.sp P) ∧
    ∃ t, s.writeReg (BitVec.ofNat 8 P.spIndex.val) v = .ok t ∧ t.sp P = v)

/-- 20_memory.md R31: an access at 256 or above raises, returns no value and changes no cell; it neither wraps nor reads
a sentinel. An access below is made. -/
def Obligations.MemoryAccessIsBoundsChecked : Prop :=
  ∀ (s : State) (a : Addr) (v : Byte),
    (256 ≤ a.toNat → s.memRead a = .error (.addressingError .memRead a) ∧
      s.memWrite a v = .error (.addressingError .memWrite a)) ∧
    (a.toNat < 256 → s.memRead a = .ok (s.mem.read a.toNat) ∧
      ∃ t, s.memWrite a v = .ok t ∧ ∀ x : Nat, x ≠ a.toNat → t.mem.read x = s.mem.read x)

/-- A register write is read back and changes no other register (42_alu.md, the storage law of its last rule). -/
def Obligations.RegisterWriteIsReadBack : Prop :=
  ∀ (s t : State) (a v : Byte), s.writeReg a v = .ok t →
    t.readReg a = .ok v ∧ ∀ b : Byte, b ≠ a → t.readReg b = s.readReg b

/-- A read gives the value most recently written, by a store or by the load port, and 0 where nothing has been written since
power-on; a write changes one cell and no other (20_memory.md section 1; that a load leaves the cells outside its image
stands in `LoadPlacesImage`). The canonical form it asks for and keeps is the model's (DESIGN CHOICE, log entry 20). -/
def Obligations.MemoryWriteIsReadBack : Prop :=
  (∀ (s t : State) (a : Addr) (v : Byte), s.mem.wf = true → s.memWrite a v = .ok t →
    t.memRead a = .ok v ∧ (∀ b : Addr, b ≠ a → t.memRead b = s.memRead b) ∧ t.mem.wf = true) ∧
  (∀ (s : State) (image : List Byte), s.mem.wf = true → image.length ≤ 256 → ∀ (k : Nat) (hk : k < image.length),
    (s.load image).memRead (BitVec.ofNat 9 k) = .ok image[k]) ∧
  (∀ (P : Params) (a : Addr), a.toNat < 256 → (State.resetWith P).memRead a = .ok 0)

/-- Two memories in canonical form that read the same everywhere are the same data. The list and its canonical form are
the model's representation of `M` (DESIGN CHOICE, log entry 20): this says that no two different lists stand for one
memory of 20_memory.md section 1. -/
def Obligations.CanonicalMemoryIsDeterminedByReads : Prop :=
  ∀ m n : Memory, m.wf = true → n.wf = true → (∀ a : Nat, a < 256 → m.read a = n.read a) → m = n

/-- 42_alu.md R94: the arithmetic of the hardware, complete. Its last two clauses say that no state records a reduction:
ADD and MUL, whatever the operands, leave everything but their destination and `pc`. -/
def Obligations.ArithmeticLaws : Prop :=
  (∀ a b : Byte, ∃ v, alu .add a b = .value v ∧ v.toNat = (a.toNat + b.toNat) % 256 ∧ alu .add b a = .value v) ∧
  (∀ a : Byte, alu .add a 0 = .value a ∧ alu .multiply a 0 = .value 0 ∧ alu .multiply a 1 = .value a) ∧
  (∀ a b : Byte, ∃ v, alu .multiply a b = .value v ∧ v.toNat = (a.toNat * b.toNat) % 256 ∧
    alu .multiply b a = .value v) ∧
  (∀ a b : Byte, ∃ f g, alu .compare a b = .flags f ∧ alu .compare b a = .flags g ∧
    (f.less = true ↔ a.toNat < b.toNat) ∧ (f.greater = true ↔ b.toNat < a.toNat) ∧
    (f.equal = true ↔ a.toNat = b.toNat) ∧ (f.less = true ↔ g.greater = true)) ∧
  (∀ (P : Params) (s : State), ((s.decSp P).sp P).toNat = ((s.sp P).toNat + 255) % 256 ∧
    ((s.incSp P).sp P).toNat = ((s.sp P).toNat + 1) % 256) ∧
  (∀ (s : State) (n : Nat), s.pc.toNat + 1 + n ≤ 256 → (s.advance n).pc.toNat = s.pc.toNat + 1 + n) ∧
  (∀ (a b : Byte) (s t : State), addRule a b s = .ok t →
    (∀ j : Fin 8, j.val ≠ a.toNat → t.regs.get j = s.regs.get j) ∧ t.pc = s.pc + 3 ∧ t.flags = s.flags ∧
      t.mem = s.mem ∧ t.out = s.out ∧ t.run = s.run ∧ t.fault = s.fault) ∧
  (∀ (a b : Byte) (s t : State), mulRule a b s = .ok t →
    (∀ j : Fin 8, j ≠ 0 → t.regs.get j = s.regs.get j) ∧ t.pc = s.pc + 3 ∧ t.flags = s.flags ∧
      t.mem = s.mem ∧ t.out = s.out ∧ t.run = s.run ∧ t.fault = s.fault)

/-! ### The stack and the subroutine laws -/

/-- A register pushed and later popped comes back, and so does the stack pointer, whatever happened in between, provided
the pointer is the same at the POP as after the PUSH and the pushed cell still holds its byte (43_stack.md, the law of
its discipline rule), for every choice of the stack pointer's index. -/
def Obligations.PushThenPopRestores : Prop :=
  ∀ (P : Params) (a : Byte) (h : a.toNat < 8) (s : State), s.mem.wf = true → a.toNat ≠ P.spIndex.val →
    ∃ t, execWith P (.push a) s = .next t ∧
      ∀ u : State, u.sp P = t.sp P → u.mem.read (t.sp P).toNat = t.mem.read (t.sp P).toNat →
        ∃ w, execWith P (.pop a) u = .next w ∧ w.regs.get ⟨a.toNat, h⟩ = s.regs.get ⟨a.toNat, h⟩ ∧
          w.sp P = s.sp P ∧ w.mem = u.mem

/-- A CALL at `c` and a later RET with the stack as the CALL left it come back to `c + 2` with the stack pointer of
before, for every choice of the stack pointer's index (44_subroutine.md, the law of the pair). -/
def Obligations.CallThenRetReturns : Prop :=
  ∀ (P : Params) (a : Byte) (s : State), a.toNat < 8 → s.mem.wf = true → s.pc.toNat < 254 →
    ∃ t, execWith P (.call a) s = .next t ∧
      ∀ u : State, u.sp P = t.sp P → u.mem.read (t.sp P).toNat = t.mem.read (t.sp P).toNat →
        ∃ w, execWith P .ret u = .next w ∧ w.pc.toNat = s.pc.toNat + 2 ∧ w.sp P = s.sp P

/-- `PUSH Ra; RET` is a jump to the register's value that leaves the registers as they were (44_subroutine.md, RET). -/
def Obligations.PushThenRetJumps : Prop :=
  ∀ (P : Params) (a : Byte) (h : a.toNat < 8) (s : State), s.mem.wf = true → a.toNat ≠ P.spIndex.val →
    ∃ t w, execWith P (.push a) s = .next t ∧ execWith P .ret t = .next w ∧
      w.pc.toNat = (s.regs.get ⟨a.toNat, h⟩).toNat ∧ w.regs = s.regs

/-- A byte stored by PUSH or CALL is what the very next step fetches from that cell, as an opcode or as an operand: whatever
instruction is fetched, the byte of its encoding that lies in the cell written is the byte stored; and if the next `pc` is
that cell, the step executes an instruction of the mnemonic the byte stands for when it fits below 256, raises on its
missing operands when it does not, and raises on the byte when it is no opcode (20_memory.md section 4 for the byte;
40_fetch_decode_execute.md section 2 for what its fetch answers). That a fetch at 256 raises and does not wrap is the spec's
decision D4 (log entry 4), and that a raise changes nothing but `RUN` and `FAULT` its decision D7 (log entry 7). The byte is
the register after the decrement (PUSH; the stack pointer's own register by D20, log entry 15) or the return address (CALL);
the canonical form of the premise is the model's (log entry 20). -/
def Obligations.StoredByteIsFetchedNext : Prop :=
  ∀ (P : Params) (i : Instr) (b : Byte) (s t : State), P.opc.wf = true → s.mem.wf = true → s.run = .running →
    execWith P i s = .next t →
    ((∃ (a : Byte) (h : a.toNat < 8), i = .push a ∧ b = (s.decSp P).regs.get ⟨a.toNat, h⟩) ∨
      (∃ a : Byte, i = .call a ∧ a.toNat < 8 ∧ s.pc.toNat < 254 ∧ b.toNat = s.pc.toNat + 2)) →
    (∀ j : Instr, fetchWith P.opc t = .ok j → ∀ (k : Nat) (hk : k < (encodeWith P.opc j).length),
      t.pc.toNat + k = (t.sp P).toNat → (encodeWith P.opc j)[k] = b) ∧
    (t.pc.toNat = (t.sp P).toNat →
      (∀ m : Mnemonic, P.opc.byte m = b →
        (t.pc.toNat + operandCount b < 256 →
          ∃ j : Instr, fetchWith P.opc t = .ok j ∧ j.mnemonic = m ∧ stepWith P t = execWith P j t) ∧
        (256 ≤ t.pc.toNat + operandCount b → stepWith P t = .next (t.raise (.addressingError .memRead 256)))) ∧
      ((∀ m : Mnemonic, P.opc.byte m ≠ b) → stepWith P t = .next (t.raise (.decodeError b (t.sp P)))))

/-! ### Whole-machine rules -/

/-- Every step keeps the invariant of 10_state.md's last rule: memory in canonical form, `FL` one of four values, `pc` at
most 256, a legal fault record exactly in `Faulted`; for every admissible reading of the parameters and from every state
that meets it. The canonical form is the model's part of the invariant (log entry 20). -/
def Obligations.StepKeepsInvariant : Prop :=
  ∀ (P : Params), P.opc.wf = true → ∀ s t : State, s.invariant P = true → stepWith P s = .next t →
    t.invariant P = true

/-- Power-on reset and initialise meet the invariant, and a load keeps it (70_reset_and_hazards.md sections 1 and 2); its
clause on the canonical form of memory is the model's (log entry 20). -/
def Obligations.ResetAndLoadMeetInvariant : Prop :=
  ∀ (P : Params), (State.resetWith P).invariant P = true ∧
    (∀ s : State, s.mem.wf = true → (s.initialiseWith P).invariant P = true) ∧
    (∀ (s : State) (image : List Byte), image.length ≤ 256 → s.invariant P = true → (s.load image).invariant P = true)

/-- Only CMP changes `FL`: a step after which the flags differ executed a CMP (10_state.md section 2). -/
def Obligations.OnlyCmpChangesFlags : Prop :=
  ∀ (P : Params) (s t : State), stepWith P s = .next t → t.flags ≠ s.flags →
    ∃ a b, fetchWith P.opc s = .ok (.cmp a b)

/-- Only PUSH and CALL change memory, one cell, the one below the old stack pointer (20_memory.md section 4;
90_conflicts.md C3). -/
def Obligations.OnlyPushAndCallChangeMemory : Prop :=
  ∀ (P : Params) (s t : State) (x : Nat), stepWith P s = .next t → t.mem.read x ≠ s.mem.read x →
    (∃ a, fetchWith P.opc s = .ok (.push a) ∨ fetchWith P.opc s = .ok (.call a)) ∧
    x = (s.sp P - 1).toNat ∧ x = (t.sp P).toNat

/-- The output only grows by appending, by at most one byte a step, and only PRN appends (10_state.md section 5; the
trace is the spec's representation, D15, log entry 14). -/
def Obligations.OutputGrowsOnlyByPrn : Prop :=
  ∀ (P : Params) (s t : State), stepWith P s = .next t →
    t.out = s.out ∨ ∃ (a : Byte) (h : a.toNat < 8), fetchWith P.opc s = .ok (.prn a) ∧
      t.out = s.out ++ [s.regs.get ⟨a.toNat, h⟩]

/-- No instruction reads `FL` or `OUT`: two states that differ in nothing else have next states that differ in nothing
else, and the same byte, if any, is appended to both outputs (10_state.md sections 2 and 5). -/
def Obligations.FlagsAndOutputAreNeverRead : Prop :=
  ∀ (P : Params) (s : State) (f : Flags) (o : List Byte),
    ∃ t u w, stepWith P s = .next t ∧ stepWith P { s with flags := f, out := o } = .next u ∧
      t.regs = u.regs ∧ t.pc = u.pc ∧ t.run = u.run ∧ t.fault = u.fault ∧ t.mem = u.mem ∧
      t.out = s.out ++ w ∧ u.out = o ++ w ∧ (t.flags = u.flags ∨ (t.flags = s.flags ∧ u.flags = f))

/-! ### Reset, load, run and observation -/

/-- The state after power-on reset (10_state.md section 6; the split into two resets is the spec's decision D13, log
entry 12), and initialise, which leaves memory alone. -/
def Obligations.ResetValues : Prop :=
  State.reset = State.resetWith Config.params ∧
  ∀ (P : Params) (s : State),
    (∀ u ∈ [State.resetWith P, s.initialiseWith P],
      u.sp P = 0xF3 ∧ (∀ i : Fin 8, i ≠ P.spIndex → u.regs.get i = 0) ∧
      u.flags = { less := false, greater := false, equal := false } ∧ u.pc = 0 ∧ u.run = .running ∧
      u.fault = none ∧ u.out = []) ∧
    (∀ a : Nat, (State.resetWith P).mem.read a = 0) ∧ (s.initialiseWith P).mem = s.mem

/-- The load port places byte `k` of an image of at most 256 bytes at address `k` and leaves every other cell and the rest
of the state; a longer image, or a load during a run, is refused (70_reset_and_hazards.md section 2; the length bound is
the spec's decision D12, log entry 12; the run bit, and that a second load before the first step is accepted and laid over
the first, are the model's, log entry 13; the canonical form that is asked for and kept is the model's, log entry 20). -/
def Obligations.LoadPlacesImage : Prop :=
  ∀ (x : Session) (image : List Byte), x.machine.mem.wf = true →
    (image.length ≤ 256 → x.stepped = false → ∃ y, x.request (.load image) = .next y ∧ y.stepped = false ∧
      (∀ (k : Nat) (hk : k < image.length), y.machine.mem.read k = image[k]) ∧
      (∀ k : Nat, image.length ≤ k → y.machine.mem.read k = x.machine.mem.read k) ∧ y.machine.mem.wf = true ∧
      y.machine.regs = x.machine.regs ∧ y.machine.flags = x.machine.flags ∧ y.machine.pc = x.machine.pc ∧
      y.machine.run = x.machine.run ∧ y.machine.fault = x.machine.fault ∧ y.machine.out = x.machine.out) ∧
    (256 < image.length → x.stepped = false → x.request (.load image) = .refused (.imageTooLong image.length)) ∧
    (x.stepped = true → x.request (.load image) = .refused .loadDuringRun)

/-- After power-on, load and initialise give the same launch state in either order, whatever went before
(70_reset_and_hazards.md section 2). -/
def Obligations.LoadAndInitialiseCommute : Prop :=
  ∀ (x : Session) (image : List Byte), image.length ≤ 256 →
    ∃ y, x.requests [.powerOn, .load image, .initialise] = .next y ∧
      x.requests [.powerOn, .initialise, .load image] = .next y ∧ y.machine = State.reset.load image

/-- A run is repeated steps until the first state that is not `Running`: it ends in `e` exactly when `e` is that state and
the fuel reaches it, and with more fuel it ends the same (40_fetch_decode_execute.md section 4; the fuel is the harness's,
log entry 19). -/
def Obligations.RunIsRepeatedSteps : Prop :=
  (∀ (fuel : Nat) (s e : State), runToEnd fuel s = some e ↔
    e.run ≠ .running ∧ ∃ n ≤ fuel, core.run n s = .next e ∧
      ∀ k < n, ∃ u : State, core.run k s = .next u ∧ u.run = .running) ∧
  (∀ (fuel more : Nat) (s e : State), runToEnd fuel s = some e → runToEnd (fuel + more) s = some e)

/-- What the host reads between steps is the whole state: two states in canonical form with the same observation are equal,
under every packing of the flags (70_reset_and_hazards.md section 3; the codes are the spec's decision D9, log entry 9, and
stand in `StatusPortShowsFaultCodes`; the canonical form is the model's, log entry 20). -/
def Obligations.ObservationShowsTheWholeState : Prop :=
  ∀ (P : Params) (s t : State), s.mem.wf = true → t.mem.wf = true → s.observe P = t.observe P → s = t

/-- The flags byte shows each flag at its bit and 0 elsewhere, under every packing with three different bits
(10_state.md section 2; the default packing is D3, log entry 3). -/
def Obligations.FlagsByteShowsEachFlag : Prop :=
  ∀ (K : FlagPack) (f : Flags) (k : Fin 8), K.wf = true →
    (f.toByte K).getLsbD k.val =
      (if k = K.less then f.less else if k = K.greater then f.greater else if k = K.equal then f.equal else false)

/-- The first step after reset runs the instruction of a table word placed for it: the decoder's reading and the machine's
are the same (log entry 18). -/
def Obligations.FetchWordRunsFirstAfterReset : Prop :=
  ∀ (nbits w : Nat) (i : Instr), decodeTableWord nbits w = some i →
    step (State.reset.withFetchWord nbits w) = exec i (State.reset.withFetchWord nbits w)

/-- The numbers on the status port: cause 0 with no fault, 1 for `DecodeError` with the opcode byte and its address, 2 for
`AddressingError` with the operation, 0 to 3, and the offending index or address (60_exceptions.md section 1; the numbers
are the spec's decision D9, log entry 9). -/
def Obligations.StatusPortShowsFaultCodes : Prop :=
  ∀ (P : Params) (s : State),
    (s.fault = none → (s.observe P).cause.toNat = 0 ∧ (s.observe P).info = none) ∧
    (∀ opcode addr : Byte, s.fault = some (.decodeError opcode addr) →
      (s.observe P).cause.toNat = 1 ∧ (s.observe P).info = some (.decode opcode addr)) ∧
    (∀ (op : Access) (v : Addr), s.fault = some (.addressingError op v) →
      (s.observe P).cause.toNat = 2 ∧ ∃ c : BitVec 2, (s.observe P).info = some (.addressing c v) ∧
        (op = .regRead → c.toNat = 0) ∧ (op = .regWrite → c.toNat = 1) ∧
        (op = .memRead → c.toNat = 2) ∧ (op = .memWrite → c.toNat = 3))

/-- What each control does to a session, and that its bit says whether a step has been requested since the last reset:
power-on and initialise clear it, a step and a run set it (70_reset_and_hazards.md section 3; the bit is the model's, log
entry 13; the fuel of a run is the harness's, log entry 19). -/
def Obligations.ControlsTrackStepRequests : Prop :=
  ∀ x : Session,
    (∃ y, x.request .powerOn = .next y ∧ y.machine = State.reset ∧ y.stepped = false) ∧
    (∃ y, x.request .initialise = .next y ∧ y.machine = x.machine.initialise ∧ y.stepped = false) ∧
    (∃ y, x.request .step = .next y ∧ step x.machine = .next y.machine ∧ y.stepped = true) ∧
    (∀ fuel : Nat, ∃ y, x.request (.run fuel) = .next y ∧ core.run fuel x.machine = .next y.machine ∧
      y.stepped = true)
end

