-- ==== Sys2Proof/Laws/Memory.lean ====
section
/-! SUPPORT. The laws of the memory list: what a read gives after a write, and that every operation keeps the
canonical form. -/

namespace Sys2Proof.Machine

@[simp] theorem Memory.read_nil (a : Nat) : Memory.read [] a = Config.unlistedByte := rfl

@[simp] theorem Memory.read_cons (k : Nat) (v : Byte) (m : Memory) (a : Nat) :
    Memory.read ((k, v) :: m) a = if a = k then v else Memory.read m a := rfl

/-- What the canonical form says of a first cell. -/
theorem Memory.wfFrom_cons {lo k : Nat} {v : Byte} {m : Memory} :
    Memory.wfFrom lo ((k, v) :: m) = true ↔
      lo ≤ k ∧ k < 256 ∧ v ≠ Config.unlistedByte ∧ Memory.wfFrom (k + 1) m = true := by
  simp [Memory.wfFrom, and_assoc]

/-- A canonical list is canonical above any smaller bound. -/
theorem Memory.wfFrom_mono {lo lo' : Nat} {m : Memory} (h : lo' ≤ lo) (hm : Memory.wfFrom lo m = true) :
    Memory.wfFrom lo' m = true := by
  cases m with
  | nil => rfl
  | cons c rest =>
    obtain ⟨k, v⟩ := c
    rw [Memory.wfFrom_cons] at hm ⊢
    exact ⟨h.trans hm.1, hm.2⟩

/-- Below the lower bound of a canonical list nothing is listed. -/
theorem Memory.read_of_lt {lo a : Nat} {m : Memory} (hm : Memory.wfFrom lo m = true) (h : a < lo) :
    Memory.read m a = Config.unlistedByte := by
  induction m generalizing lo with
  | nil => rfl
  | cons c rest ih =>
    obtain ⟨k, v⟩ := c
    rw [Memory.wfFrom_cons] at hm
    have hak : a ≠ k := by omega
    simpa [hak] using ih hm.2.2.2 (by omega)

/-- A cell put before a list that does not list it reads as its value. -/
theorem Memory.read_cell_self {a : Nat} {v : Byte} {rest : Memory}
    (h : Memory.read rest a = Config.unlistedByte) : Memory.read (Memory.cell a v rest) a = v := by
  unfold Memory.cell
  split
  · next hv => rw [h, hv]
  · simp

/-- Putting a cell leaves every other address. -/
theorem Memory.read_cell_ne {a b : Nat} (v : Byte) (rest : Memory) (h : b ≠ a) :
    Memory.read (Memory.cell a v rest) b = Memory.read rest b := by
  unfold Memory.cell
  split
  · rfl
  · simp [h]

/-- Putting a cell below the lower bound of a canonical list keeps the form. -/
theorem Memory.wfFrom_cell {lo a : Nat} {rest : Memory} (v : Byte) (hlo : lo ≤ a) (ha : a < 256)
    (h : Memory.wfFrom (a + 1) rest = true) : Memory.wfFrom lo (Memory.cell a v rest) = true := by
  unfold Memory.cell
  split
  · exact Memory.wfFrom_mono (by omega) h
  · next hv => exact Memory.wfFrom_cons.2 ⟨hlo, ha, hv, h⟩

/-- A write leaves every other address. -/
theorem Memory.read_write_ne {a b : Nat} (m : Memory) (v : Byte) (h : b ≠ a) :
    Memory.read (Memory.write m a v) b = Memory.read m b := by
  induction m with
  | nil => exact Memory.read_cell_ne v [] h
  | cons c rest ih =>
    obtain ⟨k, w⟩ := c
    unfold Memory.write
    split
    · exact Memory.read_cell_ne v _ h
    · split
      · next hk => rw [Memory.read_cell_ne v _ h, Memory.read_cons, if_neg (hk ▸ h)]
      · simp [ih]

/-- A read of the written address gives the value, above any lower bound. -/
theorem Memory.read_write_self_from {lo a : Nat} {m : Memory} (v : Byte) (hm : Memory.wfFrom lo m = true) :
    Memory.read (Memory.write m a v) a = v := by
  induction m generalizing lo with
  | nil => exact Memory.read_cell_self rfl
  | cons c rest ih =>
    obtain ⟨k, w⟩ := c
    have hc := Memory.wfFrom_cons.1 hm
    unfold Memory.write
    split
    · next hk => exact Memory.read_cell_self (Memory.read_of_lt (lo := k) (Memory.wfFrom_cons.2 ⟨le_refl k, hc.2⟩) hk)
    · split
      · next hk => exact Memory.read_cell_self (Memory.read_of_lt hc.2.2.2 (by omega))
      · next hk => simpa [hk] using ih hc.2.2.2

/-- A read of the written address gives the value (20_memory.md R32). -/
theorem Memory.read_write_self {a : Nat} {m : Memory} (v : Byte) (hm : m.wf = true) :
    Memory.read (Memory.write m a v) a = v := Memory.read_write_self_from v hm

/-- A write of an existing address keeps the canonical form, above any lower bound. -/
theorem Memory.wfFrom_write {lo a : Nat} {m : Memory} (v : Byte) (hlo : lo ≤ a) (ha : a < 256)
    (hm : Memory.wfFrom lo m = true) : Memory.wfFrom lo (Memory.write m a v) = true := by
  induction m generalizing lo with
  | nil => exact Memory.wfFrom_cell v hlo ha rfl
  | cons c rest ih =>
    obtain ⟨k, w⟩ := c
    have hc := Memory.wfFrom_cons.1 hm
    unfold Memory.write
    split
    · next hk => exact Memory.wfFrom_cell v hlo ha (Memory.wfFrom_cons.2 ⟨by omega, hc.2⟩)
    · split
      · next hk => exact Memory.wfFrom_cell v hlo ha (hk ▸ hc.2.2.2)
      · next hk => exact Memory.wfFrom_cons.2 ⟨hc.1, hc.2.1, hc.2.2.1, ih (by omega) hc.2.2.2⟩

/-- A write of an existing address keeps the canonical form. -/
theorem Memory.wf_write {a : Nat} {m : Memory} (v : Byte) (ha : a < 256) (hm : m.wf = true) :
    (Memory.write m a v).wf = true := Memory.wfFrom_write v (Nat.zero_le a) ha hm

/-- Placing bytes at existing addresses keeps the canonical form. -/
theorem Memory.wf_place {bytes : List Byte} {m : Memory} {k : Nat} (hk : k + bytes.length ≤ 256)
    (hm : m.wf = true) : (Memory.place m k bytes).wf = true := by
  induction bytes generalizing m k with
  | nil => exact hm
  | cons b rest ih =>
    simp only [List.length_cons] at hk
    exact ih (by omega) (Memory.wf_write b (by omega) hm)

end Sys2Proof.Machine
end

