-- ==== Sys2Proof/Laws/State.lean ====
section
/-! SUPPORT. One lemma per field per update of the state, and the laws of the register file. -/

namespace Sys2Proof.Machine

/-- Register `j` after a write to register `i`. -/
@[simp] theorem RegFile.get_set (r : RegFile) (i j : Fin 8) (v : Byte) :
    (r.set i v).get j = if j = i then v else r.get j := by
  fin_cases i <;> fin_cases j <;> rfl

/-- Register `i` of a file given by a function. -/
@[simp] theorem RegFile.get_ofFn (f : Fin 8 → Byte) (i : Fin 8) : (RegFile.ofFn f).get i = f i := by
  fin_cases i <;> rfl

/-- Two register files with equal registers are equal. -/
theorem RegFile.eq_of_get {r q : RegFile} (h : ∀ i, r.get i = q.get i) : r = q := by
  cases r; cases q
  simpa [RegFile.get] using And.intro (h 0) <| And.intro (h 1) <| And.intro (h 2) <| And.intro (h 3) <|
    And.intro (h 4) <| And.intro (h 5) <| And.intro (h 6) (h 7)

@[simp] theorem State.setReg_regs (s : State) (i : Fin 8) (v : Byte) : (s.setReg i v).regs = s.regs.set i v := rfl
@[simp] theorem State.setReg_flags (s : State) (i : Fin 8) (v : Byte) : (s.setReg i v).flags = s.flags := rfl
@[simp] theorem State.setReg_pc (s : State) (i : Fin 8) (v : Byte) : (s.setReg i v).pc = s.pc := rfl
@[simp] theorem State.setReg_run (s : State) (i : Fin 8) (v : Byte) : (s.setReg i v).run = s.run := rfl
@[simp] theorem State.setReg_fault (s : State) (i : Fin 8) (v : Byte) : (s.setReg i v).fault = s.fault := rfl
@[simp] theorem State.setReg_mem (s : State) (i : Fin 8) (v : Byte) : (s.setReg i v).mem = s.mem := rfl
@[simp] theorem State.setReg_out (s : State) (i : Fin 8) (v : Byte) : (s.setReg i v).out = s.out := rfl

@[simp] theorem State.setFlags_regs (s : State) (f : Flags) : (s.setFlags f).regs = s.regs := rfl
@[simp] theorem State.setFlags_flags (s : State) (f : Flags) : (s.setFlags f).flags = f := rfl
@[simp] theorem State.setFlags_pc (s : State) (f : Flags) : (s.setFlags f).pc = s.pc := rfl
@[simp] theorem State.setFlags_run (s : State) (f : Flags) : (s.setFlags f).run = s.run := rfl
@[simp] theorem State.setFlags_fault (s : State) (f : Flags) : (s.setFlags f).fault = s.fault := rfl
@[simp] theorem State.setFlags_mem (s : State) (f : Flags) : (s.setFlags f).mem = s.mem := rfl
@[simp] theorem State.setFlags_out (s : State) (f : Flags) : (s.setFlags f).out = s.out := rfl

@[simp] theorem State.setPc_regs (s : State) (t : Addr) : (s.setPc t).regs = s.regs := rfl
@[simp] theorem State.setPc_flags (s : State) (t : Addr) : (s.setPc t).flags = s.flags := rfl
@[simp] theorem State.setPc_pc (s : State) (t : Addr) : (s.setPc t).pc = t := rfl
@[simp] theorem State.setPc_run (s : State) (t : Addr) : (s.setPc t).run = s.run := rfl
@[simp] theorem State.setPc_fault (s : State) (t : Addr) : (s.setPc t).fault = s.fault := rfl
@[simp] theorem State.setPc_mem (s : State) (t : Addr) : (s.setPc t).mem = s.mem := rfl
@[simp] theorem State.setPc_out (s : State) (t : Addr) : (s.setPc t).out = s.out := rfl

@[simp] theorem State.setByte_regs (s : State) (a : Nat) (v : Byte) : (s.setByte a v).regs = s.regs := rfl
@[simp] theorem State.setByte_flags (s : State) (a : Nat) (v : Byte) : (s.setByte a v).flags = s.flags := rfl
@[simp] theorem State.setByte_pc (s : State) (a : Nat) (v : Byte) : (s.setByte a v).pc = s.pc := rfl
@[simp] theorem State.setByte_run (s : State) (a : Nat) (v : Byte) : (s.setByte a v).run = s.run := rfl
@[simp] theorem State.setByte_fault (s : State) (a : Nat) (v : Byte) : (s.setByte a v).fault = s.fault := rfl
@[simp] theorem State.setByte_mem (s : State) (a : Nat) (v : Byte) : (s.setByte a v).mem = s.mem.write a v := rfl
@[simp] theorem State.setByte_out (s : State) (a : Nat) (v : Byte) : (s.setByte a v).out = s.out := rfl

@[simp] theorem State.emit_regs (s : State) (v : Byte) : (s.emit v).regs = s.regs := rfl
@[simp] theorem State.emit_flags (s : State) (v : Byte) : (s.emit v).flags = s.flags := rfl
@[simp] theorem State.emit_pc (s : State) (v : Byte) : (s.emit v).pc = s.pc := rfl
@[simp] theorem State.emit_run (s : State) (v : Byte) : (s.emit v).run = s.run := rfl
@[simp] theorem State.emit_fault (s : State) (v : Byte) : (s.emit v).fault = s.fault := rfl
@[simp] theorem State.emit_mem (s : State) (v : Byte) : (s.emit v).mem = s.mem := rfl
@[simp] theorem State.emit_out (s : State) (v : Byte) : (s.emit v).out = s.out ++ [v] := rfl

@[simp] theorem State.halt_regs (s : State) : (s.halt).regs = s.regs := rfl
@[simp] theorem State.halt_flags (s : State) : (s.halt).flags = s.flags := rfl
@[simp] theorem State.halt_pc (s : State) : (s.halt).pc = s.pc := rfl
@[simp] theorem State.halt_run (s : State) : (s.halt).run = .halted := rfl
@[simp] theorem State.halt_fault (s : State) : (s.halt).fault = s.fault := rfl
@[simp] theorem State.halt_mem (s : State) : (s.halt).mem = s.mem := rfl
@[simp] theorem State.halt_out (s : State) : (s.halt).out = s.out := rfl

@[simp] theorem State.raise_regs (s : State) (f : FaultRecord) : (s.raise f).regs = s.regs := rfl
@[simp] theorem State.raise_flags (s : State) (f : FaultRecord) : (s.raise f).flags = s.flags := rfl
@[simp] theorem State.raise_pc (s : State) (f : FaultRecord) : (s.raise f).pc = s.pc := rfl
@[simp] theorem State.raise_run (s : State) (f : FaultRecord) : (s.raise f).run = .faulted := rfl
@[simp] theorem State.raise_fault (s : State) (f : FaultRecord) : (s.raise f).fault = some f := rfl
@[simp] theorem State.raise_mem (s : State) (f : FaultRecord) : (s.raise f).mem = s.mem := rfl
@[simp] theorem State.raise_out (s : State) (f : FaultRecord) : (s.raise f).out = s.out := rfl

@[simp] theorem State.advance_regs (s : State) (n : Nat) : (s.advance n).regs = s.regs := rfl
@[simp] theorem State.advance_flags (s : State) (n : Nat) : (s.advance n).flags = s.flags := rfl
@[simp] theorem State.advance_pc (s : State) (n : Nat) : (s.advance n).pc = s.pc + BitVec.ofNat 9 (1 + n) := rfl
@[simp] theorem State.advance_run (s : State) (n : Nat) : (s.advance n).run = s.run := rfl
@[simp] theorem State.advance_fault (s : State) (n : Nat) : (s.advance n).fault = s.fault := rfl
@[simp] theorem State.advance_mem (s : State) (n : Nat) : (s.advance n).mem = s.mem := rfl
@[simp] theorem State.advance_out (s : State) (n : Nat) : (s.advance n).out = s.out := rfl

@[simp] theorem State.decSp_regs (s : State) (P : Params) : (s.decSp P).regs = s.regs.set P.spIndex (s.sp P - 1) := rfl
@[simp] theorem State.decSp_flags (s : State) (P : Params) : (s.decSp P).flags = s.flags := rfl
@[simp] theorem State.decSp_pc (s : State) (P : Params) : (s.decSp P).pc = s.pc := rfl
@[simp] theorem State.decSp_run (s : State) (P : Params) : (s.decSp P).run = s.run := rfl
@[simp] theorem State.decSp_fault (s : State) (P : Params) : (s.decSp P).fault = s.fault := rfl
@[simp] theorem State.decSp_mem (s : State) (P : Params) : (s.decSp P).mem = s.mem := rfl
@[simp] theorem State.decSp_out (s : State) (P : Params) : (s.decSp P).out = s.out := rfl

@[simp] theorem State.incSp_regs (s : State) (P : Params) : (s.incSp P).regs = s.regs.set P.spIndex (s.sp P + 1) := rfl
@[simp] theorem State.incSp_flags (s : State) (P : Params) : (s.incSp P).flags = s.flags := rfl
@[simp] theorem State.incSp_pc (s : State) (P : Params) : (s.incSp P).pc = s.pc := rfl
@[simp] theorem State.incSp_run (s : State) (P : Params) : (s.incSp P).run = s.run := rfl
@[simp] theorem State.incSp_fault (s : State) (P : Params) : (s.incSp P).fault = s.fault := rfl
@[simp] theorem State.incSp_mem (s : State) (P : Params) : (s.incSp P).mem = s.mem := rfl
@[simp] theorem State.incSp_out (s : State) (P : Params) : (s.incSp P).out = s.out := rfl

/-- The stack pointer after it is decremented. -/
@[simp] theorem State.decSp_sp (s : State) (P : Params) : (s.decSp P).sp P = s.sp P - 1 := by
  simp [State.sp]

/-- The stack pointer after it is incremented. -/
@[simp] theorem State.incSp_sp (s : State) (P : Params) : (s.incSp P).sp P = s.sp P + 1 := by
  simp [State.sp]

/-- The stack pointer is a register: it is what the register file holds at `SP_INDEX`. -/
theorem State.sp_def (s : State) (P : Params) : s.sp P = s.regs.get P.spIndex := rfl

@[simp] theorem State.initialiseWith_regs (s : State) (P : Params) : (s.initialiseWith P).regs = (State.resetWith P).regs := rfl
@[simp] theorem State.initialiseWith_flags (s : State) (P : Params) : (s.initialiseWith P).flags = Flags.clear := rfl
@[simp] theorem State.initialiseWith_pc (s : State) (P : Params) : (s.initialiseWith P).pc = 0 := rfl
@[simp] theorem State.initialiseWith_run (s : State) (P : Params) : (s.initialiseWith P).run = .running := rfl
@[simp] theorem State.initialiseWith_fault (s : State) (P : Params) : (s.initialiseWith P).fault = none := rfl
@[simp] theorem State.initialiseWith_mem (s : State) (P : Params) : (s.initialiseWith P).mem = s.mem := rfl
@[simp] theorem State.initialiseWith_out (s : State) (P : Params) : (s.initialiseWith P).out = [] := rfl

@[simp] theorem State.load_regs (s : State) (image : List Byte) : (s.load image).regs = s.regs := rfl
@[simp] theorem State.load_flags (s : State) (image : List Byte) : (s.load image).flags = s.flags := rfl
@[simp] theorem State.load_pc (s : State) (image : List Byte) : (s.load image).pc = s.pc := rfl
@[simp] theorem State.load_run (s : State) (image : List Byte) : (s.load image).run = s.run := rfl
@[simp] theorem State.load_fault (s : State) (image : List Byte) : (s.load image).fault = s.fault := rfl
@[simp] theorem State.load_mem (s : State) (image : List Byte) : (s.load image).mem = s.mem.place 0 image := rfl
@[simp] theorem State.load_out (s : State) (image : List Byte) : (s.load image).out = s.out := rfl

end Sys2Proof.Machine
end

