-- ==== Sys2Proof/Laws/Ops.lean ====
section
/-! SUPPORT. What each checked access and each shared operation can answer, said once. -/

namespace Sys2Proof.Machine

@[simp] theorem except_ok_bind {α β : Type} (x : α) (f : α → Except FaultRecord β) :
    ((Except.ok x : Except FaultRecord α) >>= f) = f x := rfl

@[simp] theorem except_error_bind {α β : Type} (e : FaultRecord) (f : α → Except FaultRecord β) :
    ((Except.error e : Except FaultRecord α) >>= f) = .error e := rfl

/-- A byte below 8 selects the register of its value. -/
theorem registerOf_of_lt {a : Byte} (h : a.toNat < 8) : registerOf a = some ⟨a.toNat, h⟩ := by
  simp [registerOf, h]

/-- A byte of 8 or more selects no register. -/
theorem registerOf_of_ge {a : Byte} (h : 8 ≤ a.toNat) : registerOf a = none := by
  simp [registerOf, Nat.not_lt.2 h]

/-- A byte that selects a register is that register's number. -/
theorem registerOf_eq_some {a : Byte} {i : Fin 8} (h : registerOf a = some i) : a.toNat = i.val := by
  unfold registerOf at h
  split at h
  · exact congrArg Fin.val (Option.some.inj h)
  · cases h

/-- A byte that selects no register is 8 or more. -/
theorem registerOf_eq_none {a : Byte} (h : registerOf a = none) : 8 ≤ a.toNat := by
  by_contra hlt
  rw [registerOf_of_lt (Nat.not_le.1 hlt)] at h
  cases h

/-- Everything a checked memory read can answer. -/
theorem State.memRead_cases (s : State) (a : Addr) :
    (a.toNat < 256 ∧ s.memRead a = .ok (s.mem.read a.toNat)) ∨
      (256 ≤ a.toNat ∧ s.memRead a = .error (.addressingError .memRead a)) := by
  unfold State.memRead
  split
  · exact .inl ⟨‹_›, rfl⟩
  · exact .inr ⟨Nat.not_lt.1 ‹_›, rfl⟩

theorem State.memRead_of_lt {s : State} {a : Addr} (h : a.toNat < 256) :
    s.memRead a = .ok (s.mem.read a.toNat) := if_pos h

theorem State.memRead_of_ge {s : State} {a : Addr} (h : 256 ≤ a.toNat) :
    s.memRead a = .error (.addressingError .memRead a) := if_neg (Nat.not_lt.2 h)

theorem State.memWrite_of_lt {s : State} {a : Addr} {v : Byte} (h : a.toNat < 256) :
    s.memWrite a v = .ok (s.setByte a.toNat v) := if_pos h

theorem State.memWrite_of_ge {s : State} {a : Addr} {v : Byte} (h : 256 ≤ a.toNat) :
    s.memWrite a v = .error (.addressingError .memWrite a) := if_neg (Nat.not_lt.2 h)

/-- The top of the stack as a number is the stack pointer. -/
@[simp] theorem State.stackTop_toNat (P : Params) (s : State) : (s.stackTop P).toNat = (s.sp P).toNat := by
  have := (s.sp P).isLt
  simp only [State.stackTop, BitVec.toNat_setWidth]
  omega

/-- An access through the stack pointer is in bounds (43_stack.md R102). -/
theorem State.stackTop_lt (P : Params) (s : State) : (s.stackTop P).toNat < 256 := by
  rw [State.stackTop_toNat]
  exact (s.sp P).isLt

@[simp] theorem State.memRead_stackTop (P : Params) (s : State) :
    s.memRead (s.stackTop P) = .ok (s.mem.read (s.sp P).toNat) := by
  rw [State.memRead_of_lt (s.stackTop_lt P), State.stackTop_toNat]

@[simp] theorem State.memWrite_stackTop (P : Params) (s : State) (v : Byte) :
    s.memWrite (s.stackTop P) v = .ok (s.setByte (s.sp P).toNat v) := by
  rw [State.memWrite_of_lt (s.stackTop_lt P), State.stackTop_toNat]

/-- Everything a transaction can answer: the instruction's state, or the old state with the fault. -/
theorem transact_eq_next {s t : State} {r : Except FaultRecord State} :
    transact s r = .next t ↔ r = .ok t ∨ ∃ f, r = .error f ∧ t = s.raise f := by
  cases r with
  | ok u => simp [transact]
  | error f => simp [transact, eq_comm]

/-- A transaction always answers a next state. -/
theorem transact_next (s : State) (r : Except FaultRecord State) : ∃ t, transact s r = .next t := by
  cases r with
  | ok u => exact ⟨u, rfl⟩
  | error f => exact ⟨s.raise f, rfl⟩

end Sys2Proof.Machine
end

