-- ==== Sys2Proof/Laws/Decode.lean ====
section
/-! SUPPORT. What an admissible opcode map gives the decoder, and everything a fetch can answer. -/

namespace Sys2Proof

/-- The two constraints of an admissible map. -/
theorem OpcodeMap.wf_def {O : OpcodeMap} (h : O.wf = true) :
    (∀ m : Mnemonic, (O.byte m).extractLsb' 4 4 = m.highNibble) ∧ (Mnemonic.all.map O.byte).Nodup := by
  simp only [OpcodeMap.wf, Bool.and_eq_true, List.all_eq_true, beq_iff_eq, decide_eq_true_eq] at h
  exact ⟨fun m => h.1 m (by cases m <;> decide), h.2⟩

/-- An admissible map gives different mnemonics different bytes. -/
theorem OpcodeMap.byte_injective {O : OpcodeMap} (h : O.wf = true) {m k : Mnemonic} (e : O.byte m = O.byte k) :
    m = k :=
  List.inj_on_of_nodup_map (OpcodeMap.wf_def h).2 (by cases m <;> decide) (by cases k <;> decide) e

/-- The operand count is the upper half of the high nibble. -/
theorem operandCount_eq_highNibble (ir : Byte) : operandCount ir = (ir.extractLsb' 4 4).toNat / 4 := by
  revert ir
  decide

/-- Under an admissible map the operand count of a mnemonic's byte is the one its format has. -/
theorem operandCount_byte {O : OpcodeMap} (h : O.wf = true) (m : Mnemonic) :
    operandCount (O.byte m) = m.highNibble.toNat / 4 := by
  rw [operandCount_eq_highNibble, (OpcodeMap.wf_def h).1]

/-- A mnemonic the decoder answers has the byte it was given. -/
theorem byte_of_decodeOpcode {O : OpcodeMap} {ir : Byte} {m : Mnemonic} (h : decodeOpcode O ir = some m) :
    O.byte m = ir := by
  simpa using List.find?_some h

/-- Assembling keeps the mnemonic. -/
@[simp] theorem Mnemonic.assemble_mnemonic (m : Mnemonic) (a b : Byte) : (m.assemble a b).mnemonic = m := by
  cases m <;> rfl

end Sys2Proof

namespace Sys2Proof.Machine

/-- One more, exact below 256. -/
theorem addr_add_one {a : Addr} (h : a.toNat < 256) : (a + 1).toNat = a.toNat + 1 := by
  rw [BitVec.toNat_add]
  change (a.toNat + 1) % 512 = _
  omega

/-- Two more, exact below 256. -/
theorem addr_add_two {a : Addr} (h : a.toNat < 256) : (a + 2).toNat = a.toNat + 2 := by
  rw [BitVec.toNat_add]
  change (a.toNat + 2) % 512 = _
  omega

/-- What a fetch that answers an instruction says of `pc` and of the byte there. -/
theorem fetchWith_ok {O : OpcodeMap} {s : State} {i : Instr} (h : fetchWith O s = .ok i) :
    s.pc.toNat < 256 ∧ O.byte i.mnemonic = s.mem.read s.pc.toNat ∧
      (1 ≤ operandCount (O.byte i.mnemonic) → s.pc.toNat < 255) ∧
      (operandCount (O.byte i.mnemonic) = 2 → s.pc.toNat < 254) := by
  unfold fetchWith at h
  obtain ⟨hlt, e⟩ | ⟨-, e⟩ := s.memRead_cases s.pc <;> rw [e] at h
  · simp only [except_ok_bind] at h
    split at h
    · cases h
    · next m hm =>
      have e1 := addr_add_one hlt
      have e2 := addr_add_two hlt
      have hb := byte_of_decodeOpcode hm
      refine ⟨hlt, ?_⟩
      split at h
      · obtain ⟨hl1, er⟩ | ⟨-, er⟩ := s.memRead_cases (s.pc + 1) <;> rw [er] at h
        · split at h
          · obtain ⟨hl2, er⟩ | ⟨-, er⟩ := s.memRead_cases (s.pc + 2) <;> rw [er] at h
            · cases h
              rw [Mnemonic.assemble_mnemonic]
              exact ⟨hb, by omega, by omega⟩
            · cases h
          · next hn2 =>
            cases h
            rw [Mnemonic.assemble_mnemonic, hb]
            exact ⟨rfl, by omega, fun e => absurd e hn2⟩
        · cases h
      · next hn =>
        split at h
        · omega
        · cases h
          rw [Mnemonic.assemble_mnemonic, hb]
          exact ⟨rfl, by omega, by omega⟩
  · cases h

/-- Everything a fetch that raises can raise: past the top of memory, an unknown opcode, or an operand past the top. -/
theorem fetchWith_error {O : OpcodeMap} {s : State} {f : FaultRecord} (h : fetchWith O s = .error f) :
    (256 ≤ s.pc.toNat ∧ f = .addressingError .memRead s.pc) ∨
      (s.pc.toNat < 256 ∧ decodeOpcode O (s.mem.read s.pc.toNat) = none ∧
        f = .decodeError (s.mem.read s.pc.toNat) (s.pc.setWidth 8)) ∨
      (s.pc.toNat < 256 ∧ f = .addressingError .memRead 256) := by
  unfold fetchWith at h
  obtain ⟨hlt, e⟩ | ⟨hge, e⟩ := s.memRead_cases s.pc <;> rw [e] at h
  · simp only [except_ok_bind] at h
    have e1 := addr_add_one hlt
    have e2 := addr_add_two hlt
    split at h
    · next hn => cases h; exact .inr (.inl ⟨hlt, hn, rfl⟩)
    · refine .inr (.inr ⟨hlt, ?_⟩)
      split at h
      · obtain ⟨hl1, er⟩ | ⟨hg1, er⟩ := s.memRead_cases (s.pc + 1) <;> rw [er] at h
        · split at h
          · obtain ⟨-, er⟩ | ⟨hg2, er⟩ := s.memRead_cases (s.pc + 2) <;> rw [er] at h
            · cases h
            · cases h
              congr 1
              exact BitVec.eq_of_toNat_eq (by change (s.pc + 2).toNat = 256; omega)
          · cases h
        · cases h
          congr 1
          exact BitVec.eq_of_toNat_eq (by change (s.pc + 1).toNat = 256; omega)
      · split at h
        · omega
        · cases h
  · cases h
    exact .inl ⟨hge, rfl⟩

end Sys2Proof.Machine
end

