-- ==== Sys2Proof/Laws/PerInstr.lean ====
section
/-! SUPPORT. A family of facts about every instruction as syntax: the length of its encoding. -/

namespace Sys2Proof.Laws.Length

/-- The encoding of `i` has 1 + n bytes, n being bits 7 to 6 of the opcode byte, which R52 fixes for every opcode map
(30_encoding.md R50, R52). -/
def Statement (i : Instr) : Prop :=
  ∀ O : OpcodeMap, (encodeWith O i).length = 1 + i.mnemonic.highNibble.toNat / 4

theorem ldi (a v : Byte) : Statement (.ldi a v) := fun _ => by simp [encodeWith, Instr.operandBytes, Instr.mnemonic, Mnemonic.highNibble]
theorem prn (a : Byte) : Statement (.prn a) := fun _ => by simp [encodeWith, Instr.operandBytes, Instr.mnemonic, Mnemonic.highNibble]
theorem hlt : Statement .hlt := fun _ => by simp [encodeWith, Instr.operandBytes, Instr.mnemonic, Mnemonic.highNibble]
theorem push (a : Byte) : Statement (.push a) := fun _ => by simp [encodeWith, Instr.operandBytes, Instr.mnemonic, Mnemonic.highNibble]
theorem pop (a : Byte) : Statement (.pop a) := fun _ => by simp [encodeWith, Instr.operandBytes, Instr.mnemonic, Mnemonic.highNibble]
theorem call (a : Byte) : Statement (.call a) := fun _ => by simp [encodeWith, Instr.operandBytes, Instr.mnemonic, Mnemonic.highNibble]
theorem ret : Statement .ret := fun _ => by simp [encodeWith, Instr.operandBytes, Instr.mnemonic, Mnemonic.highNibble]
theorem add (a b : Byte) : Statement (.add a b) := fun _ => by simp [encodeWith, Instr.operandBytes, Instr.mnemonic, Mnemonic.highNibble]
theorem mul (a b : Byte) : Statement (.mul a b) := fun _ => by simp [encodeWith, Instr.operandBytes, Instr.mnemonic, Mnemonic.highNibble]
theorem cmp (a b : Byte) : Statement (.cmp a b) := fun _ => by simp [encodeWith, Instr.operandBytes, Instr.mnemonic, Mnemonic.highNibble]

end Sys2Proof.Laws.Length
end

