-- ==== Sys2Proof/Laws/Rules.lean ====
section
/-! SUPPORT. Each execute rule in one equation, over the registers its operands select; and the fixed names as the
default case of the functions over parameters. -/

namespace Sys2Proof.Machine

theorem ldiRule_eq (a v : Byte) (s : State) :
    ldiRule a v s = match registerOf a with
      | some i => .ok ((s.setReg i v).advance 2)
      | none => .error (.addressingError .regWrite (a.setWidth 9)) := by
  unfold ldiRule State.writeReg
  cases registerOf a <;> rfl

theorem prnRule_eq (a : Byte) (s : State) :
    prnRule a s = match registerOf a with
      | some i => .ok ((s.emit (s.regs.get i)).advance 1)
      | none => .error (.addressingError .regRead (a.setWidth 9)) := by
  unfold prnRule State.readReg
  cases registerOf a <;> rfl

theorem cmpRule_eq (a b : Byte) (s : State) :
    cmpRule a b s = match registerOf a, registerOf b with
      | some i, some j => .ok ((s.setFlags (compareFlags (s.regs.get i) (s.regs.get j))).advance 2)
      | none, _ => .error (.addressingError .regRead (a.setWidth 9))
      | some _, none => .error (.addressingError .regRead (b.setWidth 9)) := by
  unfold cmpRule aluRule State.readReg
  cases registerOf a <;> cases registerOf b <;> rfl

theorem addRule_eq (a b : Byte) (s : State) :
    addRule a b s = match registerOf a, registerOf b with
      | some i, some j => .ok ((s.setReg i (s.regs.get i + s.regs.get j)).advance 2)
      | none, _ => .error (.addressingError .regRead (a.setWidth 9))
      | some _, none => .error (.addressingError .regRead (b.setWidth 9)) := by
  unfold addRule aluRule State.readReg State.writeReg
  cases registerOf a <;> cases registerOf b <;> rfl

theorem mulRule_eq (a b : Byte) (s : State) :
    mulRule a b s = match registerOf a, registerOf b with
      | some i, some j => .ok ((s.setReg 0 (s.regs.get i * s.regs.get j)).advance 2)
      | none, _ => .error (.addressingError .regRead (a.setWidth 9))
      | some _, none => .error (.addressingError .regRead (b.setWidth 9)) := by
  unfold mulRule aluRule State.readReg
  cases registerOf a <;> cases registerOf b <;> rfl

theorem pushRule_eq (P : Params) (a : Byte) (s : State) :
    pushRule P a s = match registerOf a with
      | some i => .ok (((s.decSp P).setByte (s.sp P - 1).toNat ((s.decSp P).regs.get i)).advance 1)
      | none => .error (.addressingError .regRead (a.setWidth 9)) := by
  unfold pushRule State.readReg
  cases registerOf a with
  | none => rfl
  | some i => simp only [except_ok_bind, State.memWrite_stackTop, State.decSp_sp]; rfl

theorem popRule_eq (P : Params) (a : Byte) (s : State) :
    popRule P a s = match registerOf a with
      | some i => .ok (((s.setReg i (s.mem.read (s.sp P).toNat)).incSp P).advance 1)
      | none => .error (.addressingError .regWrite (a.setWidth 9)) := by
  unfold popRule State.writeReg
  simp only [State.memRead_stackTop, except_ok_bind]
  cases registerOf a <;> rfl

theorem callRule_eq (P : Params) (a : Byte) (s : State) :
    callRule P a s =
      if 254 ≤ s.pc.toNat then .error (.addressingError .memWrite (BitVec.ofNat 9 (s.pc.toNat + 2)))
      else match registerOf a with
        | some i => .ok (((s.decSp P).setByte (s.sp P - 1).toNat (BitVec.ofNat 8 (s.pc.toNat + 2))).setPc
            (((s.decSp P).regs.get i).setWidth 9))
        | none => .error (.addressingError .regRead (a.setWidth 9)) := by
  unfold callRule State.readReg
  by_cases h : 254 ≤ s.pc.toNat
  · have h' : 256 ≤ s.pc.toNat + 2 := by omega
    simp [h, h']
  · have h' : ¬ 256 ≤ s.pc.toNat + 2 := by omega
    simp only [h, h', if_false, except_ok_bind, State.memWrite_stackTop, State.decSp_sp]
    cases registerOf a <;> rfl

theorem retRule_eq (P : Params) (s : State) :
    retRule P s = .ok ((s.incSp P).setPc ((s.mem.read (s.sp P).toNat).setWidth 9)) := by
  unfold retRule
  simp only [except_ok_bind, State.memRead_stackTop]
  rfl

/-- `exec` is the execute rules at the default parameters. -/
theorem exec_eq_execWith (i : Instr) (s : State) : exec i s = execWith Config.params i s := by
  cases i <;> rfl

/-- `step` is the step at the default parameters. -/
theorem step_eq_stepWith (s : State) : step s = stepWith Config.params s := by
  unfold step stepWith
  congr 1
  funext i s
  exact exec_eq_execWith i s

/-- Every execute rule answers a next state. -/
theorem execWith_next (P : Params) (i : Instr) (s : State) : ∃ t, execWith P i s = .next t := transact_next s _

/-- Everything a step can do. -/
theorem stepWith_cases {P : Params} {s t : State} (h : stepWith P s = .next t) :
    (s.run ≠ .running ∧ t = s) ∨
      (s.run = .running ∧ ∃ f, fetchWith P.opc s = .error f ∧ t = s.raise f) ∨
      (s.run = .running ∧ ∃ i, fetchWith P.opc s = .ok i ∧ execWith P i s = .next t) := by
  unfold stepWith stepUsing at h
  split at h
  · next hr => exact .inl ⟨by simp [hr], by cases h; rfl⟩
  · next hr => exact .inl ⟨by simp [hr], by cases h; rfl⟩
  · next hr =>
    split at h
    · next f hf => exact .inr (.inl ⟨hr, f, hf, by cases h; rfl⟩)
    · next i hi => exact .inr (.inr ⟨hr, i, hi, h⟩)

/-- A step of a running state whose instruction is fetched executes it. -/
theorem stepWith_of_fetch {P : Params} {s : State} {i : Instr} (hr : s.run = .running)
    (hf : fetchWith P.opc s = .ok i) : stepWith P s = execWith P i s := by
  simp [stepWith, stepUsing, hr, hf]

/-- A step of a running state whose fetch raises takes the fault. -/
theorem stepWith_of_fetch_error {P : Params} {s : State} {f : FaultRecord} (hr : s.run = .running)
    (hf : fetchWith P.opc s = .error f) : stepWith P s = .next (s.raise f) := by
  simp [stepWith, stepUsing, hr, hf]

end Sys2Proof.Machine
end

