-- ==== Sys2Proof/Tests/Slice0.lean ====
section
/-! SUPPORT. The model's own tests: expected results are the vectors of 95_test_vectors.md (named in each comment) or
words written out from the formats of 30_encoding.md; then a witness for every statement that has hypotheses. -/

namespace Sys2Proof.Tests

open Sys2Proof.Machine

/-- The state an outcome carries. -/
def next? (o : Host.Outcome State Fault Refusal) : Option State :=
  match o with
  | .next s => some s
  | .fault _ => none
  | .refused _ => none

/-- The reset state with bytes placed at `pc`, and `pc` there. -/
def progAt (pc : Nat) (bytes : List Byte) : State :=
  { State.reset with pc := BitVec.ofNat 9 pc, mem := Memory.place [] pc bytes }

/-- One step from bytes at `pc`, register `i` holding `v`, register `j` holding `w`. -/
def stepAt (pc : Nat) (bytes : List Byte) (i : Fin 8) (v : Byte) (j : Fin 8) (w : Byte) : Option State :=
  next? (step (((progAt pc bytes).setReg i v).setReg j w))

/-! ### WellFormed: one ill-formed term for each check, which the check refuses -/

theorem test_wf_ldi : (Instr.ldi 8 0).wf = false ∧ (Instr.ldi 7 255).wf = true := by decide
theorem test_wf_prn : (Instr.prn 255).wf = false := by decide
theorem test_wf_push : (Instr.push 8).wf = false := by decide
theorem test_wf_pop : (Instr.pop 16).wf = false := by decide
theorem test_wf_call : (Instr.call 9).wf = false := by decide
theorem test_wf_add : (Instr.add 8 0).wf = false ∧ (Instr.add 0 8).wf = false := by decide
theorem test_wf_mul : (Instr.mul 8 0).wf = false ∧ (Instr.mul 0 8).wf = false := by decide
theorem test_wf_cmp : (Instr.cmp 8 0).wf = false ∧ (Instr.cmp 0 8).wf = false := by decide
theorem test_wf_opcode_map : { Config.opc with ldi := 0x47 }.wf = false ∧ { Config.opc with mul := 0xA0 }.wf = false ∧
    Config.opc.wf = true := by decide
theorem test_wf_flag_pack : ({ less := 1, greater := 1, equal := 0 } : FlagPack).wf = false ∧
    Config.params.flPack.wf = true := by decide

/-! ### Decoding: words written out bit by bit from 30_encoding.md R50 and R53 -/

theorem test_decode_ldi : decode [0b10000010, 0b00000101, 0b10000001] = .ok (.ldi 5 129, []) := by decide
theorem test_decode_prn : decode [0b01000111, 0b00000110] = .ok (.prn 6, []) := by decide
theorem test_decode_hlt : decode [0b00000001, 0b11111111] = .ok (.hlt, [0b11111111]) := by decide
theorem test_decode_push : decode [0b01000101, 0b00000011] = .ok (.push 3, []) := by decide
theorem test_decode_pop : decode [0b01000110, 0b10000000] = .ok (.pop 128, []) := by decide
theorem test_decode_call : decode [0b01010000, 0b00000001] = .ok (.call 1, []) := by decide
theorem test_decode_ret : decode [0b00010001] = .ok (.ret, []) := by decide
theorem test_decode_add : decode [0b10100000, 0b00000010, 0b00000011] = .ok (.add 2 3, []) := by decide
theorem test_decode_mul : decode [0b10100010, 0b00000010, 0b00000011] = .ok (.mul 2 3, []) := by decide
theorem test_decode_cmp : decode [0b10100111, 0b00000000, 0b00000001] = .ok (.cmp 0 1, []) := by decide
theorem test_decode_rejects : decode [] = .error .noOpcode ∧ decode [0xC0, 1, 2, 3] = .error (.unknownOpcode 0xC0) ∧
    decode [0x45] = .error .missingOperandA ∧ decode [0xA7, 0] = .error .missingOperandB := by decide
set_option maxRecDepth 8000 in
/-- 30_encoding.md R58: 246 of the 256 byte values are illegal. -/
theorem test_illegal_count : ((List.range 256).filter
    (fun n => (decodeOpcode Config.opc (BitVec.ofNat 8 n)).isNone)).length = 246 := by decide
/-- 30_encoding.md R51, R53: the marker bits and the number of the ADD and CALL bytes. -/
theorem test_opcode_layout : aluMarker 0xA0 = true ∧ pcMarker 0xA0 = false ∧ opcodeNumber 0xA7 = 7 ∧
    aluMarker 0x50 = false ∧ pcMarker 0x50 = true ∧ operandCount 0x50 = 1 := by decide
theorem test_encode_add : encode (.add 2 3) = [0xA0, 0x02, 0x03] := by decide
/-- The first byte is the least significant byte of a table word; bits above `nbits` are 0. -/
theorem test_table_word : decodeTableWord 24 0x080082 = some (.ldi 0 8) ∧ decodeTableWord 8 0x82 = some (.ldi 0 0) ∧
    decodeTableWord 8 0xFF11 = some .ret ∧ decodeTableWord 8 0x00 = none := by decide

/-! ### Execution: vectors of 95_test_vectors.md -/

/-- V-LDI-4. -/
theorem test_ldi : (stepAt 0 [0x82, 0, 0x82] 0 9 1 0).map (fun t => (t.regs.r0, t.pc)) = some (130, 3) := by decide
/-- V-LDI-6. -/
theorem test_ldi_fault : (stepAt 0 [0x82, 8, 5] 0 0 1 0).map (fun t => (t.fault, t.pc)) =
    some (some (.addressingError .regWrite 8), 0) := by decide
/-- V-LDI-7: an instruction that ends at 255 completes. -/
theorem test_ldi_top : (stepAt 253 [0x82, 0, 9] 0 0 1 0).map (fun t => (t.regs.r0, t.pc)) = some (9, 256) := by decide
/-- V-PRN-7. -/
theorem test_prn : (next? (step (((progAt 0 [0x47, 0]).setReg 0 2).emit 1))).map (·.out) = some [1, 2] := by decide
/-- V-PRN-6. -/
theorem test_prn_top : (stepAt 255 [0x47] 0 0 1 0).map (fun t => (t.fault, t.out, t.pc)) =
    some (some (.addressingError .memRead 256), [], 255) := by decide
/-- V-CMP-3. -/
theorem test_cmp_equal : (next? (step ((((progAt 0 [0xA7, 0, 1]).setReg 0 5).setReg 1 5).setFlags
    { less := true, greater := false, equal := false }))).map (·.flags) =
    some { less := false, greater := false, equal := true } := by decide
/-- V-CMP-6: unsigned. -/
theorem test_cmp_unsigned : (stepAt 0 [0xA7, 0, 1] 0 128 1 127).map (·.flags) =
    some { less := false, greater := true, equal := false } := by decide
/-- V-ADD-4. -/
theorem test_add : (stepAt 0 [0xA0, 0, 1] 0 200 1 100).map (fun t => (t.regs.r0, t.regs.r1, t.pc)) =
    some (44, 100, 3) := by decide
/-- V-ADD-10: operand A is reported first. -/
theorem test_add_fault : (stepAt 0 [0xA0, 9, 8] 0 0 1 0).map (·.fault) =
    some (some (.addressingError .regRead 9)) := by decide
/-- V-MUL-2: the product goes to register 0. -/
theorem test_mul : (next? (step (((((progAt 0 [0xA2, 2, 3]).setReg 0 99).setReg 2 5).setReg 3 6)))).map
    (fun t => (t.regs.r0, t.regs.r2, t.regs.r3)) = some (30, 5, 6) := by decide
/-- V-MUL-8. -/
theorem test_mul_wrap : (stepAt 0 [0xA2, 2, 2] 2 200 1 0).map (fun t => (t.regs.r0, t.regs.r2)) = some (64, 200) := by
  decide
/-- V-PUSH-2: the stack pointer wraps. -/
theorem test_push_wrap : (stepAt 0 [0x45, 0] 0 0xAB 7 0).map (fun t => (t.regs.r7, t.mem.read 0xFF, t.pc)) =
    some (0xFF, 0xAB, 2) := by decide
/-- V-PUSH-5: the stack pointer itself is pushed decremented. -/
theorem test_push_sp : (stepAt 0 [0x45, 7] 7 0xF3 0 0).map (fun t => (t.regs.r7, t.mem.read 0xF2)) =
    some (0xF2, 0xF2) := by decide
/-- V-POP-3. -/
theorem test_pop_wrap : (next? (step (((progAt 0 [0x46, 0]).setReg 7 0xFF).setByte 0xFF 0x21))).map
    (fun t => (t.regs.r0, t.regs.r7)) = some (0x21, 0) := by decide
/-- V-POP-5. -/
theorem test_pop_sp : (next? (step (((progAt 0 [0x46, 7]).setReg 7 0xF2).setByte 0xF2 0x10))).map
    (·.regs.r7) = some 0x11 := by decide
/-- V-CALL-3: the largest return address. -/
theorem test_call : (stepAt 253 [0x50, 1] 1 0x40 0 0).map (fun t => (t.regs.r7, t.mem.read 0xF2, t.pc)) =
    some (0xF2, 0xFF, 0x40) := by decide
/-- V-CALL-5: the return address is checked before the register. -/
theorem test_call_fault : (stepAt 254 [0x50, 9] 0 0 1 0).map (fun t => (t.fault, t.regs.r7, t.pc)) =
    some (some (.addressingError .memWrite 256), 0xF3, 254) := by decide
/-- V-RET-1. -/
theorem test_ret : (next? (step (((progAt 0x0E [0x11]).setReg 7 0xF2).setByte 0xF2 8))).map
    (fun t => (t.pc, t.regs.r7)) = some (8, 0xF3) := by decide
/-- V-HLT-2. -/
theorem test_hlt : (stepAt 255 [0x01] 0 0 1 0).map (fun t => (t.run, t.pc)) = some (.halted, 255) := by decide
/-- V-HLT-3 and V-HLT-4: a terminal state is returned unchanged. -/
theorem test_terminal : next? (step State.reset.halt) = some State.reset.halt := by decide
/-- V-DEC-4. -/
theorem test_decode_error : (stepAt 254 [0x83] 0 0 1 0).map (·.fault) = some (some (.decodeError 0x83 0xFE)) := by
  decide
/-- V-FET-1. -/
theorem test_fetch_error : (stepAt 256 [] 0 0 1 0).map (·.fault) = some (some (.addressingError .memRead 256)) := by
  decide
/-- V-RST-2 and V-RST-3. -/
theorem test_load : (State.reset.load [0x82, 0x00, 0x08]).mem = [(0, 0x82), (2, 0x08)] := by decide
/-- V-RST-5, and a load during a run. -/
theorem test_load_refused (image : List Byte) (h : image.length = 257) :
    (Session.mk State.reset false).request (.load image) = .refused (.imageTooLong 257) ∧
    (Session.mk State.reset true).request (.load []) = .refused .loadDuringRun := by
  simp [Session.request, h]
/-- A second load before the first step is laid over the first (log entry 13). -/
theorem test_second_load : (Session.mk State.reset false).requests [.load [1, 2, 3], .load [9]] =
    .next (Session.mk { State.reset with mem := [(0, 9), (1, 2), (2, 3)] } false) := by rfl
/-- V-HLT-5. -/
theorem test_initialise : (((progAt 5 [0x01]).setReg 3 9).halt.emit 1).initialise =
    { State.reset with mem := [(5, 1)] } := by decide
/-- Program P1 (the source's S1) from power-on: it halts with 72 in the output. -/
theorem test_program_P1 : (runToEnd 5 (State.reset.load
    [0x82, 0, 8, 0x82, 1, 9, 0xA2, 0, 1, 0x47, 0, 0x01])).map (fun t => (t.run, t.out)) = some (.halted, [72]) := by
  decide
/-- 60_exceptions.md R121 on V-FET-1: cause 2, operation 2, value 256; 10_state.md R14: Less shows as 4. -/
theorem test_status_codes : causeCode (some (.addressingError .memRead 256)) = 2 ∧
    faultInfo (some (.addressingError .memRead 256)) = some (.addressing 2 256) ∧
    (compareFlags 3 7).toByte Config.params.flPack = 4 := by decide

/-! ### Witnesses: concrete states and operands that meet the hypotheses of each statement -/

/-- Encoding statements: an admissible map, and bytes the decoder accepts and refuses. -/
theorem witness_encoding : Config.params.opc.wf = true ∧ Config.params.flPack.wf = true ∧
    decodeWith Config.params.opc [0x82, 3, 254, 9] = .ok (.ldi 3 254, [9]) ∧
    Config.params.opc.byte .hlt = 0x01 := by decide

/-- StepRunsDecodedInstruction, at both ends of the address space. -/
theorem witness_StepRunsDecodedInstruction :
    (progAt 0 [0x82, 0, 8]).run = .running ∧ decode (progAt 0 [0x82, 0, 8]).fetchWindow = .ok (.ldi 0 8, []) ∧
    decode (progAt 255 [0x11]).fetchWindow = .ok (.ret, []) := by decide

/-- StepRunsTheInstructionAtPc: an instruction whose last byte is at 255. -/
theorem witness_StepRunsTheInstructionAtPc :
    (progAt 253 [0xA7, 1, 2]).run = .running ∧
    (progAt 253 [0xA7, 1, 2]).pc.toNat + (encodeWith Config.params.opc (.cmp 1 2)).length = 256 ∧
    (progAt 253 [0xA7, 1, 2]).mem.read 253 = 0xA7 ∧ (progAt 253 [0xA7, 1, 2]).mem.read 254 = 1 ∧
    (progAt 253 [0xA7, 1, 2]).mem.read 255 = 2 := by decide

/-- TerminalStatesNeverChange. -/
theorem witness_TerminalStatesNeverChange : State.reset.halt.run ≠ .running ∧
    (State.reset.raise (.decodeError 0 0)).run ≠ .running := by decide

/-- UnknownOpcodeRaisesDecodeError, both clauses, at 255 and at 0. -/
theorem witness_UnknownOpcodeRaisesDecodeError :
    (∀ m : Mnemonic, Config.params.opc.byte m ≠ (progAt 255 [0xFF]).mem.read 255) ∧
    (∀ m : Mnemonic, Config.params.opc.byte m ≠ State.reset.mem.read 0) ∧
    (progAt 255 [0xFF]).run = .running ∧ (progAt 255 [0xFF]).pc.toNat = 255 ∧ (progAt 255 [0xFF]).fault = none ∧
    (next? (stepWith Config.params (progAt 255 [0xFF]))).map (·.fault) = some (some (.decodeError 0xFF 0xFF)) := by
  refine ⟨fun m => ?_, fun m => ?_, ?_⟩
  · cases m <;> decide
  · cases m <;> decide
  · decide

/-- FetchPastTheTopRaises, and the fetch clauses of the instruction statements: opcodes at 254 and 255, `pc` 256. -/
theorem witness_FetchPastTheTopRaises :
    (progAt 256 []).pc.toNat = 256 ∧ (progAt 256 []).run = .running ∧
    (progAt 255 [0x45]).mem.read 255 = Config.params.opc.push ∧ (progAt 255 [0x45]).pc.toNat = 255 ∧
    operandCount Config.params.opc.push = 1 ∧ (progAt 254 [0x82]).mem.read 254 = Config.params.opc.ldi ∧
    (progAt 254 [0x82]).pc.toNat = 254 ∧ operandCount Config.params.opc.ldi = 2 ∧
    (progAt 255 [0x47]).mem.read 255 = Config.params.opc.prn ∧ (progAt 255 [0x46]).mem.read 255 = Config.params.opc.pop ∧
    (progAt 254 [0xA0]).mem.read 254 = Config.params.opc.add ∧ (progAt 254 [0xA2]).mem.read 254 = Config.params.opc.mul ∧
    (progAt 255 [0x82]).mem.read 255 = Config.params.opc.ldi ∧ (progAt 255 [0xA0]).mem.read 255 = Config.params.opc.add ∧
    (progAt 255 [0xA2]).mem.read 255 = Config.params.opc.mul := by decide

/-- StepEndsInOneOfThreeWays and StepIsSafeExactlyWhen: each of the three ends is reached from a running state. -/
theorem witness_StepEndsInOneOfThreeWays :
    (progAt 0 [0x82, 0, 8]).run = .running ∧ (progAt 0 [0x82, 0, 8]).fault = none ∧
    (next? (stepWith Config.params (progAt 0 [0x82, 0, 8]))).map (·.run) = some .running ∧
    (next? (stepWith Config.params (progAt 0 [0x01]))).map (·.run) = some .halted ∧
    (next? (stepWith Config.params (progAt 0 [0x00]))).map (·.run) = some .faulted := by decide

/-- FirstFaultIsReported, first and last clause: CMP, ADD, MUL and LDI at 254 before an invalid index, and the
boundary of the register index. -/
theorem witness_FirstFaultIsReported :
    (progAt 254 [0xA7, 8]).run = .running ∧ (progAt 254 [0xA7, 8]).pc.toNat = 254 ∧ 8 ≤ (8 : Byte).toNat ∧
    (7 : Byte).toNat < 8 ∧ (progAt 254 [0xA7, 8]).mem.read 254 = Config.params.opc.cmp ∧
    (progAt 254 [0xA7, 8]).mem.read 255 = 8 := by decide

/-- The result statements: valid and invalid register operands at the boundary, one of them the stack pointer's and one
not, and a memory in canonical form. -/
theorem witness_operands : (7 : Byte).toNat < 8 ∧ 8 ≤ (8 : Byte).toNat ∧ (7 : Byte).toNat = Config.params.spIndex.val ∧
    (6 : Byte).toNat ≠ Config.params.spIndex.val ∧ (0 : Byte).toNat < 8 ∧ (progAt 253 [0x50, 1]).mem.wf = true ∧
    (progAt 253 [0x50, 1]).pc.toNat < 254 ∧ (progAt 254 [0x50, 1]).pc.toNat = 254 := by decide

/-- The frame statements: every instruction they name answers a next state (here at reset). -/
theorem witness_frames : (∀ i ∈ [Instr.ldi 1 5, .prn 0, .add 1 2, .mul 1 2, .cmp 1 2, .hlt, .push 0, .call 0, .pop 0, .ret],
    (next? (exec i State.reset)).isSome = true) := by decide

/-- RegisterIndexIsCheckedNotMasked, RegisterWriteIsReadBack, MemoryAccessIsBoundsChecked, MemoryWriteIsReadBack: accesses
at the ends of their ranges. -/
theorem witness_accesses : (State.reset.writeReg 7 5).isOk = true ∧ (0 : Byte) ≠ 7 ∧ State.reset.mem.wf = true ∧
    (State.reset.memWrite 255 9).isOk = true ∧ (255 : Addr).toNat < 256 ∧ 256 ≤ (256 : Addr).toNat ∧
    [1#8, 2#8].length ≤ 256 := by decide

/-- CanonicalMemoryIsDeterminedByReads: two ways to the same memory. -/
theorem witness_CanonicalMemoryIsDeterminedByReads : (Memory.place [] 3 [1, 2]).wf = true ∧
    ((Memory.write [(4, 2)] 3 1).wf = true) ∧ Memory.place [] 3 [1, 2] = Memory.write [(4, 2)] 3 1 := by decide

/-- ArithmeticLaws: an advance that ends at 256, and an ADD and a MUL that complete and whose results are reduced. -/
theorem witness_ArithmeticLaws : (progAt 253 []).pc.toNat + 1 + 2 ≤ 256 ∧
    (addRule 0 7 ((progAt 0 []).setReg 0 200)).map (·.regs.r0) = .ok 187 ∧
    (mulRule 1 1 ((progAt 0 []).setReg 1 200)).map (·.regs.r0) = .ok 64 := by decide

/-- The same stack pointer, and the same byte where it points. -/
def sameTop (t u : State) : Bool :=
  u.sp Config.params == t.sp Config.params &&
    u.mem.read (t.sp Config.params).toNat == t.mem.read (t.sp Config.params).toNat

/-- PushThenPopRestores, PushThenRetJumps, CallThenRetReturns: register 0 pushed, or called through, and a later state
with the same stack pointer and the same byte on top but another `pc` and another register 0. -/
theorem witness_stack_laws :
    (0 : Byte).toNat < 8 ∧ (0 : Byte).toNat ≠ Config.params.spIndex.val ∧ (progAt 253 [0x50, 0]).mem.wf = true ∧
    (progAt 253 [0x50, 0]).pc.toNat < 254 ∧
    (next? (execWith Config.params (.push 0) ((progAt 0 [0x45, 0]).setReg 0 9))).map
      (fun t => sameTop t (t.setReg 0 77) && t.setReg 0 77 != t) = some true ∧
    (next? (execWith Config.params (.call 0) (progAt 253 [0x50, 0]))).map
      (fun t => sameTop t (t.setPc 0x80) && t.setPc 0x80 != t) = some true := by decide

/-- StoredByteIsFetchedNext: a PUSH at 0xF0 with the stack pointer at 0xF3 stores where the next `pc` is, a one-operand
opcode at the top of memory when it is at 0xFD with the stack pointer at 0, a byte that is no opcode otherwise; a PUSH at
0xEF stores where the next instruction's second byte is; a CALL through the stack pointer jumps to the byte it stored. -/
theorem witness_StoredByteIsFetchedNext :
    let landed := fun (o : Host.Outcome State Fault Refusal) => (next? o).map fun t =>
      (t.pc.toNat, (t.sp Config.params).toNat, t.mem.read (t.sp Config.params).toNat)
    landed (execWith Config.params (.push 0) ((progAt 0xF0 [0x45, 0]).setReg 0 0xA0)) = some (0xF2, 0xF2, 0xA0) ∧
    landed (execWith Config.params (.push 0) (((progAt 0xFD [0x45, 0]).setReg 0 0x47).setReg 7 0)) =
      some (0xFF, 0xFF, 0x47) ∧
    landed (execWith Config.params (.push 0) ((progAt 0xF0 [0x45, 0]).setReg 0 0x02)) = some (0xF2, 0xF2, 0x02) ∧
    landed (execWith Config.params (.push 0) ((progAt 0xEF [0x45, 0, 0x47]).setReg 0 5)) = some (0xF1, 0xF2, 5) ∧
    landed (execWith Config.params (.call 7) (progAt 0x43 [0x50, 7])) = some (0xF2, 0xF2, 0x45) ∧
    (progAt 0xF0 [0x45, 0]).mem.wf = true ∧ (progAt 0xF0 [0x45, 0]).run = .running ∧
    (∀ m : Mnemonic, Config.params.opc.byte m ≠ 0x02) ∧ Config.params.opc.add = 0xA0 ∧ operandCount 0xA0 = 2 ∧
    Config.params.opc.prn = 0x47 ∧ operandCount 0x47 = 1 := by
  refine ⟨by decide, by decide, by decide, by decide, by decide, by decide, by decide, fun m => ?_, by decide⟩
  cases m <;> decide

/-- StepKeepsInvariant, ResetAndLoadMeetInvariant: states that meet the invariant, one of them faulted. -/
theorem witness_invariant : State.reset.invariant Config.params = true ∧
    (State.reset.raise (.decodeError 0 0)).invariant Config.params = true ∧
    (progAt 253 [0x82, 0, 9]).invariant Config.params = true ∧
    (State.reset.raise (.decodeError 0x82 0)).invariant Config.params = false := by decide

/-- OnlyCmpChangesFlags and OutputGrowsOnlyByPrn: a step that changes the flags, and one that emits. -/
theorem witness_flag_and_output_changes :
    (next? (stepWith Config.params (progAt 0 [0xA7, 0, 7]))).map (·.flags) =
      some { less := true, greater := false, equal := false } ∧
    (next? (stepWith Config.params (progAt 0 [0x47, 7]))).map (·.out) = some [0xF3] := by decide

/-- OnlyPushAndCallChangeMemory: a PUSH and a CALL that change a byte. -/
theorem witness_OnlyPushAndCallChangeMemory :
    (next? (stepWith Config.params (progAt 0 [0x45, 7]))).map (·.mem.read 0xF2) = some 0xF2 ∧
    (next? (stepWith Config.params (progAt 0 [0x50, 0]))).map (·.mem.read 0xF2) = some 2 ∧
    (progAt 0 [0x45, 7]).mem.read 0xF2 = 0 := by decide

/-- LoadPlacesImage and LoadAndInitialiseCommute: images at the length bound and past it, sessions before and in a run. -/
theorem witness_LoadPlacesImage : State.reset.mem.wf = true ∧ (List.replicate 256 (1 : Byte)).length ≤ 256 ∧
    256 < (List.replicate 257 (1 : Byte)).length ∧
    (Session.mk State.reset false).stepped = false ∧ (Session.mk State.reset true).stepped = true := by
  exact ⟨by decide, by rw [List.length_replicate], by rw [List.length_replicate]; decide, rfl, rfl⟩

/-- RunIsRepeatedSteps: a load and a halt end in two steps. -/
theorem witness_RunIsRepeatedSteps : (runToEnd 2 (progAt 0 [0x82, 0, 5, 0x01])).map (fun t => (t.run, t.regs.r0)) =
    some (.halted, 5) ∧ (runToEnd 1 (progAt 0 [0x82, 0, 5, 0x01])).isSome = false := by decide

/-- ObservationShowsTheWholeState: a state in canonical form. -/
theorem witness_ObservationShowsTheWholeState : (progAt 0 [0x82, 0, 5, 0x01]).mem.wf = true := by decide

/-- StatusPortShowsFaultCodes: a fault record of each kind, each operation, and none. -/
theorem witness_StatusPortShowsFaultCodes : State.reset.fault = none ∧
    (State.reset.raise (.decodeError 0x83 0xFE)).fault = some (.decodeError 0x83 0xFE) ∧
    ∀ op ∈ [Access.regRead, .regWrite, .memRead, .memWrite],
      (State.reset.raise (.addressingError op 8)).fault = some (.addressingError op 8) := by decide

/-- FetchWordRunsFirstAfterReset: a table word of each length that decodes. -/
theorem witness_FetchWordRunsFirstAfterReset : decodeTableWord 24 0x0201A7 = some (.cmp 1 2) ∧
    decodeTableWord 16 0x0745 = some (.push 7) ∧ decodeTableWord 8 0x01 = some .hlt := by decide

end Sys2Proof.Tests
end

section
/-! PROOFS. The checked register accessors (10_state.md R13). -/

namespace Sys2Proof.Machine

/-- The byte that encodes a register's number selects that register. -/
@[simp] theorem registerOf_ofNat_val (i : Fin 8) : registerOf (BitVec.ofNat 8 i.val) = some i := by
  have hval : (BitVec.ofNat 8 i.val).toNat = i.val := by
    simpa using Nat.mod_eq_of_lt (i.isLt.trans (by decide : 8 < 256))
  have hlt : (BitVec.ofNat 8 i.val).toNat < 8 := hval.trans_lt i.isLt
  rw [registerOf_of_lt hlt]
  exact congrArg some (Fin.ext hval)

theorem State.readReg_of_some {s : State} {a : Byte} {i : Fin 8} (h : registerOf a = some i) :
    s.readReg a = .ok (s.regs.get i) := by
  simp [State.readReg, h]

theorem State.readReg_of_none {s : State} {a : Byte} (h : registerOf a = none) :
    s.readReg a = .error (.addressingError .regRead (a.setWidth 9)) := by
  simp [State.readReg, h]

theorem State.writeReg_of_some {s : State} {a v : Byte} {i : Fin 8} (h : registerOf a = some i) :
    s.writeReg a v = .ok (s.setReg i v) := by
  simp [State.writeReg, h]

theorem State.writeReg_of_none {s : State} {a v : Byte} (h : registerOf a = none) :
    s.writeReg a v = .error (.addressingError .regWrite (a.setWidth 9)) := by
  simp [State.writeReg, h]

/-- The stack pointer after its register is written. -/
@[simp] theorem State.setReg_spIndex_sp (P : Params) (s : State) (v : Byte) :
    (s.setReg P.spIndex v).sp P = v := by
  simp [State.sp_def]

/-- Settles O28: an operand byte selects a register exactly when it is below 8, and the number of the stack pointer's
register always does. -/
theorem registerIndexIsCheckedNotMasked : Obligations.RegisterIndexIsCheckedNotMasked := by
  unfold Obligations.RegisterIndexIsCheckedNotMasked
  refine ⟨fun s a v => ⟨fun hlt => ?valid, fun hge => ?invalid⟩, fun P s v => ?stackPointer⟩
  case valid =>
    have hsome := registerOf_of_lt hlt
    exact ⟨State.readReg_of_some hsome, State.writeReg_of_some hsome⟩
  case invalid =>
    have hnone := registerOf_of_ge hge
    exact ⟨State.readReg_of_none hnone, State.writeReg_of_none hnone⟩
  case stackPointer =>
    have hsp := registerOf_ofNat_val P.spIndex
    exact ⟨State.readReg_of_some hsp, s.setReg P.spIndex v, State.writeReg_of_some hsp,
      State.setReg_spIndex_sp P s v⟩

end Sys2Proof.Machine
end

section
/-! PROOFS. The checked memory accessors (20_memory.md R31). -/

namespace Sys2Proof.Machine

/-- Storing a byte leaves what every other cell reads. -/
theorem State.read_setByte_ne {a b : Nat} (s : State) (v : Byte) (h : b ≠ a) :
    (s.setByte a v).mem.read b = s.mem.read b := by
  rw [State.setByte_mem, Memory.read_write_ne s.mem v h]

/-- Settles O29: the accessors decide by the whole 9-bit address, and an access in bounds is the cell's own read or
store. -/
theorem memoryAccessIsBoundsChecked : Obligations.MemoryAccessIsBoundsChecked := by
  unfold Obligations.MemoryAccessIsBoundsChecked
  refine fun s a v => ⟨fun hge => ?outOfBounds, fun hlt => ?inBounds⟩
  case outOfBounds => exact ⟨State.memRead_of_ge hge, State.memWrite_of_ge hge⟩
  case inBounds =>
    exact ⟨State.memRead_of_lt hlt, s.setByte a.toNat v, State.memWrite_of_lt hlt,
      fun _ hne => State.read_setByte_ne s v hne⟩

end Sys2Proof.Machine
end

section
/-! PROOFS. What the decoder answers, by the opcode byte (30_encoding.md R54, R57). -/

namespace Sys2Proof

/-- The operand count as a number: bits 7 to 6 are the quotient by 2 ^ 6. -/
theorem operandCount_eq_div (ir : Byte) : operandCount ir = ir.toNat / 64 := by
  have hlt := ir.isLt
  rw [operandCount, BitVec.extractLsb_toNat, Nat.shiftRight_eq_div_pow]
  omega

/-- No mnemonic has a format of more than two operand bytes (30_encoding.md R57). -/
theorem operandCount_byte_le_two {O : OpcodeMap} (h : O.wf = true) (m : Mnemonic) :
    operandCount (O.byte m) ≤ 2 := by
  rw [operandCount_byte h]
  cases m <;> decide

/-- The decoder recognises each mnemonic's byte: the converse of `byte_of_decodeOpcode`. -/
theorem decodeOpcode_byte {O : OpcodeMap} (h : O.wf = true) (m : Mnemonic) :
    decodeOpcode O (O.byte m) = some m := by
  have hall : m ∈ Mnemonic.all := by cases m <;> decide
  obtain ⟨k, hk⟩ : ∃ k, decodeOpcode O (O.byte m) = some k :=
    Option.isSome_iff_exists.1 (List.find?_isSome.2 ⟨m, hall, beq_self_eq_true _⟩)
  rw [hk, OpcodeMap.byte_injective h (byte_of_decodeOpcode hk)]

theorem decodeOpcode_eq_some_iff {O : OpcodeMap} (h : O.wf = true) {ir : Byte} {m : Mnemonic} :
    decodeOpcode O ir = some m ↔ O.byte m = ir :=
  ⟨byte_of_decodeOpcode, fun e => e ▸ decodeOpcode_byte h m⟩

theorem decodeOpcode_eq_none_iff {O : OpcodeMap} (h : O.wf = true) {ir : Byte} :
    decodeOpcode O ir = none ↔ ∀ m : Mnemonic, O.byte m ≠ ir := by
  simp only [Option.eq_none_iff_forall_ne_some, ne_eq, decodeOpcode_eq_some_iff h]

/-- Two bytes after the opcode are enough for every format: `n` operand bytes are taken, the rest is left. -/
theorem takeOperands_ok {n : Nat} (hn : n ≤ 2) (a b : Byte) (rest : List Byte) :
    ∃ opA opB, takeOperands n (a :: b :: rest) = .ok (opA, opB, (a :: b :: rest).drop n) := by
  obtain rfl | rfl | rfl : n = 0 ∨ n = 1 ∨ n = 2 := by omega
  · exact ⟨0, 0, rfl⟩
  · exact ⟨a, 0, rfl⟩
  · exact ⟨a, b, rfl⟩

/-- A byte the decoder does not recognise is refused by name, whatever follows it. -/
theorem decodeWith_of_decodeOpcode_none {O : OpcodeMap} {ir : Byte} (h : decodeOpcode O ir = none)
    (more : List Byte) : decodeWith O (ir :: more) = .error (.unknownOpcode ir) := by
  simp only [decodeWith, h]

/-- A recognised opcode with its operand bytes present is assembled from them. -/
theorem decodeWith_of_takeOperands {O : OpcodeMap} {ir opA opB : Byte} {m : Mnemonic} {more rest : List Byte}
    (hm : decodeOpcode O ir = some m) (ht : takeOperands (operandCount ir) more = .ok (opA, opB, rest)) :
    decodeWith O (ir :: more) = .ok (m.assemble opA opB, rest) := by
  simp only [decodeWith, hm, ht]

/-- A mnemonic's byte with two bytes after it decodes to that mnemonic and consumes the operands of its format. -/
theorem decodeWith_byte {O : OpcodeMap} (h : O.wf = true) (m : Mnemonic) (a b : Byte) (rest : List Byte) :
    ∃ i, decodeWith O (O.byte m :: a :: b :: rest) =
      .ok (i, (a :: b :: rest).drop (operandCount (O.byte m))) ∧ i.mnemonic = m := by
  obtain ⟨opA, opB, ht⟩ := takeOperands_ok (operandCount_byte_le_two h m) a b rest
  exact ⟨m.assemble opA opB, decodeWith_of_takeOperands (decodeOpcode_byte h m) ht,
    Mnemonic.assemble_mnemonic m opA opB⟩

/-- With two bytes after the opcode, the decoder refuses it as unknown exactly when it is no mnemonic's byte. -/
theorem decodeWith_eq_unknownOpcode_iff {O : OpcodeMap} (h : O.wf = true) {ir : Byte} (a b : Byte)
    (rest : List Byte) : decodeWith O (ir :: a :: b :: rest) = .error (.unknownOpcode ir) ↔
      ∀ m : Mnemonic, O.byte m ≠ ir := by
  constructor
  · rintro hrefused m rfl
    obtain ⟨i, haccepted, -⟩ := decodeWith_byte h m a b rest
    cases hrefused.symm.trans haccepted
  · exact fun hne => decodeWith_of_decodeOpcode_none ((decodeOpcode_eq_none_iff h).2 hne) _

/-- Settles O3: the search for the opcode finds a byte's only mnemonic, and the operand bytes are taken after it by the
count alone. -/
theorem opcodeMatchIsExact : Obligations.OpcodeMatchIsExact := by
  unfold Obligations.OpcodeMatchIsExact
  refine fun O h ir => ⟨fun _ => decodeOpcode_eq_some_iff h, decodeOpcode_eq_none_iff h, operandCount_eq_div ir,
    decodeWith_eq_unknownOpcode_iff h, ?consumes⟩
  case consumes =>
    rintro m rfl a b rest
    rw [← operandCount_eq_div]
    exact decodeWith_byte h m a b rest

end Sys2Proof
end

section
/-! PROOFS. What the instruction statements share: the operand fetch past the top of memory
(40_fetch_decode_execute.md R74), and an execute rule's answer as the answer of `exec`. -/

namespace Sys2Proof.Machine

/-- An opcode whose last operand byte would lie past 255 raises at operand fetch: no such fetch answers an instruction,
and the opcode itself is recognised. -/
theorem fetchWith_of_operands_past_top {O : OpcodeMap} (h : O.wf = true) {s : State} {m : Mnemonic}
    (hm : O.byte m = s.mem.read s.pc.toNat) (hpc : s.pc.toNat < 256)
    (hpast : 256 ≤ s.pc.toNat + operandCount (O.byte m)) :
    fetchWith O s = .error (.addressingError .memRead 256) := by
  cases hf : fetchWith O s with
  | ok i =>
    obtain ⟨-, hi, hfitsA, hfitsB⟩ := fetchWith_ok hf
    rw [hi, ← hm] at hfitsA hfitsB
    have hle := operandCount_byte_le_two h m
    omega
  | error f =>
    obtain ⟨hge, -⟩ | ⟨-, hunknown, -⟩ | ⟨-, rfl⟩ := fetchWith_error hf
    · omega
    · rw [← hm, decodeOpcode_byte h m] at hunknown
      cases hunknown
    · rfl

/-- The step over such an opcode, at the default parameters. -/
theorem step_of_operands_past_top {s : State} (m : Mnemonic) (hrun : s.run = .running)
    (hm : s.mem.read s.pc.toNat = Config.params.opc.byte m) (hpc : s.pc.toNat < 256)
    (hpast : 256 ≤ s.pc.toNat + operandCount (Config.params.opc.byte m)) :
    step s = .next (s.raise (.addressingError .memRead 256)) := by
  have hwf : Config.params.opc.wf = true := by decide
  rw [step_eq_stepWith]
  exact stepWith_of_fetch_error hrun (fetchWith_of_operands_past_top hwf hm.symm hpc hpast)

theorem exec_of_execRule_ok {i : Instr} {s t : State} (h : execRule Config.params i s = .ok t) :
    exec i s = .next t := by
  rw [exec_eq_execWith]
  exact transact_eq_next.2 (.inl h)

theorem exec_of_execRule_error {i : Instr} {s : State} {f : FaultRecord}
    (h : execRule Config.params i s = .error f) : exec i s = .next (s.raise f) := by
  rw [exec_eq_execWith]
  exact transact_eq_next.2 (.inr ⟨f, h, rfl⟩)

end Sys2Proof.Machine
end

section
/-! PROOFS. LDI and PRN (41_load_immediate_and_print.md R85, R87). -/

namespace Sys2Proof.Machine

theorem ldiRule_of_some {a v : Byte} {s : State} {i : Fin 8} (h : registerOf a = some i) :
    ldiRule a v s = .ok ((s.setReg i v).advance 2) := by
  rw [ldiRule_eq, h]

theorem ldiRule_of_none {a v : Byte} {s : State} (h : registerOf a = none) :
    ldiRule a v s = .error (.addressingError .regWrite (a.setWidth 9)) := by
  rw [ldiRule_eq, h]

theorem prnRule_of_some {a : Byte} {s : State} {i : Fin 8} (h : registerOf a = some i) :
    prnRule a s = .ok ((s.emit (s.regs.get i)).advance 1) := by
  rw [prnRule_eq, h]

theorem prnRule_of_none {a : Byte} {s : State} (h : registerOf a = none) :
    prnRule a s = .error (.addressingError .regRead (a.setWidth 9)) := by
  rw [prnRule_eq, h]

/-- Settles O14: a valid index makes LDI one register write and the advance of `pc`, any other one raises, and both
operand bytes are fetched before either. -/
theorem ldiLoadsImmediate : Obligations.LdiLoadsImmediate := by
  unfold Obligations.LdiLoadsImmediate
  refine fun a v s => ⟨fun O => rfl, fun hlt => ?completes, fun hge => ?invalid, fun hrun hop hpc => ?truncated⟩
  case completes =>
    have hexec : exec (.ldi a v) s = _ := exec_of_execRule_ok (ldiRule_of_some (registerOf_of_lt hlt))
    refine ⟨_, hexec, by simp, fun j hj => ?_, rfl, rfl, rfl, rfl, rfl, rfl⟩
    have hne : j ≠ ⟨a.toNat, hlt⟩ := fun e => hj (congrArg Fin.val e)
    simp [hne]
  case invalid => exact exec_of_execRule_error (ldiRule_of_none (registerOf_of_ge hge))
  case truncated =>
    have hcount : operandCount (Config.params.opc.byte .ldi) = 2 := by decide
    exact step_of_operands_past_top .ldi hrun hop (by omega) (by omega)

/-- Settles O15: a valid index makes PRN one emission of the register's byte and the advance of `pc`, any other one
raises before the emission, and the operand byte is fetched before either. -/
theorem prnEmitsRegister : Obligations.PrnEmitsRegister := by
  unfold Obligations.PrnEmitsRegister
  refine fun a s => ⟨fun O => rfl, fun hlt => ?completes, fun hge => ?invalid, fun hrun hop hpc => ?truncated⟩
  case completes =>
    have hexec : exec (.prn a) s = _ := exec_of_execRule_ok (prnRule_of_some (registerOf_of_lt hlt))
    exact ⟨_, hexec, rfl, rfl, rfl, rfl, rfl, rfl, rfl⟩
  case invalid => exact exec_of_execRule_error (prnRule_of_none (registerOf_of_ge hge))
  case truncated =>
    have hcount : operandCount (Config.params.opc.byte .prn) = 1 := by decide
    exact step_of_operands_past_top .prn hrun hop (by omega) (by omega)

end Sys2Proof.Machine
end

section
/-! PROOFS. The ALU, ADD and MUL (42_alu.md R90 to R94), and the arithmetic of `SP` and `pc`. -/

namespace Sys2Proof.Machine

/-- The unsigned comparison as three decisions. -/
theorem compareFlags_eq (a b : Byte) :
    compareFlags a b = { less := decide (a.toNat < b.toNat), greater := decide (b.toNat < a.toNat),
                         equal := decide (a.toNat = b.toNat) } := by
  unfold compareFlags
  obtain h | h | h := Nat.lt_trichotomy a.toNat b.toNat
  · simp [h, Nat.lt_asymm h, Nat.ne_of_lt h]
  · simp [h]
  · simp [h, Nat.lt_asymm h, Nat.ne_of_gt h]

theorem compareFlags_less (a b : Byte) : (compareFlags a b).less = true ↔ a.toNat < b.toNat := by
  rw [compareFlags_eq, decide_eq_true_iff]

theorem compareFlags_greater (a b : Byte) : (compareFlags a b).greater = true ↔ b.toNat < a.toNat := by
  rw [compareFlags_eq, decide_eq_true_iff]

theorem compareFlags_equal (a b : Byte) : (compareFlags a b).equal = true ↔ a.toNat = b.toNat := by
  rw [compareFlags_eq, decide_eq_true_iff]

/-- The stack pointer steps down modulo 256 (43_stack.md R102). -/
theorem State.decSp_sp_toNat (P : Params) (s : State) :
    ((s.decSp P).sp P).toNat = ((s.sp P).toNat + 255) % 256 := by
  rw [State.decSp_sp, BitVec.toNat_sub, Nat.add_comm]
  rfl

/-- The stack pointer steps up modulo 256 (43_stack.md R102). -/
theorem State.incSp_sp_toNat (P : Params) (s : State) :
    ((s.incSp P).sp P).toNat = ((s.sp P).toNat + 1) % 256 := by
  rw [State.incSp_sp, BitVec.toNat_add]
  rfl

/-- The advance of `pc` is exact while it ends at 256 or below. -/
theorem State.advance_pc_toNat {s : State} {n : Nat} (h : s.pc.toNat + 1 + n ≤ 256) :
    (s.advance n).pc.toNat = s.pc.toNat + 1 + n := by
  rw [State.advance_pc, BitVec.toNat_add, BitVec.toNat_ofNat]
  omega

/-- Every ALU instruction checks operand A's index before anything else. -/
theorem aluRule_of_none_left (op : AluOp) {a : Byte} (b dest : Byte) (s : State) (ha : registerOf a = none) :
    aluRule op a b dest s = .error (.addressingError .regRead (a.setWidth 9)) := by
  rw [aluRule, State.readReg_of_none ha, except_error_bind]

/-- Every ALU instruction checks operand B's index once operand A is read. -/
theorem aluRule_of_none_right (op : AluOp) {a b : Byte} (dest : Byte) (s : State) {i : Fin 8}
    (ha : registerOf a = some i) (hb : registerOf b = none) :
    aluRule op a b dest s = .error (.addressingError .regRead (b.setWidth 9)) := by
  rw [aluRule, State.readReg_of_some ha, except_ok_bind, State.readReg_of_none hb, except_error_bind]

/-- An ALU instruction completes only when both of its indices are valid. -/
theorem aluRule_ok_operands {op : AluOp} {a b dest : Byte} {s t : State} (h : aluRule op a b dest s = .ok t) :
    ∃ i j, registerOf a = some i ∧ registerOf b = some j := by
  cases ha : registerOf a with
  | none => cases h.symm.trans (aluRule_of_none_left op b dest s ha)
  | some i =>
    cases hb : registerOf b with
    | none => cases h.symm.trans (aluRule_of_none_right op dest s ha hb)
    | some j => exact ⟨i, j, rfl, rfl⟩

section
variable {a b : Byte} {s t : State} {i j : Fin 8}

theorem addRule_of_some (ha : registerOf a = some i) (hb : registerOf b = some j) :
    addRule a b s = .ok ((s.setReg i (s.regs.get i + s.regs.get j)).advance 2) := by
  rw [addRule_eq, ha, hb]

theorem mulRule_of_some (ha : registerOf a = some i) (hb : registerOf b = some j) :
    mulRule a b s = .ok ((s.setReg 0 (s.regs.get i * s.regs.get j)).advance 2) := by
  rw [mulRule_eq, ha, hb]

/-- What a completed ADD leaves: everything but operand A's register and `pc`. -/
theorem addRule_frame (h : addRule a b s = .ok t) :
    (∀ k : Fin 8, k.val ≠ a.toNat → t.regs.get k = s.regs.get k) ∧ t.pc = s.pc + 3 ∧ t.flags = s.flags ∧
      t.mem = s.mem ∧ t.out = s.out ∧ t.run = s.run ∧ t.fault = s.fault := by
  obtain ⟨i, j, ha, hb⟩ := aluRule_ok_operands h
  cases (addRule_of_some ha hb).symm.trans h
  refine ⟨fun k hk => ?_, rfl, rfl, rfl, rfl, rfl, rfl⟩
  have hne : k ≠ i := fun e => hk (e ▸ (registerOf_eq_some ha).symm)
  simp [hne]

/-- What a completed MUL leaves: everything but register 0 and `pc`. -/
theorem mulRule_frame (h : mulRule a b s = .ok t) :
    (∀ k : Fin 8, k ≠ 0 → t.regs.get k = s.regs.get k) ∧ t.pc = s.pc + 3 ∧ t.flags = s.flags ∧
      t.mem = s.mem ∧ t.out = s.out ∧ t.run = s.run ∧ t.fault = s.fault := by
  obtain ⟨i, j, ha, hb⟩ := aluRule_ok_operands h
  cases (mulRule_of_some ha hb).symm.trans h
  refine ⟨fun k hk => ?_, rfl, rfl, rfl, rfl, rfl, rfl⟩
  simp [hk]

end

/-- Settles O16: two valid indices make ADD one write of the sum of the old values to operand A's register, which its
frame completes; the first invalid one raises, and both operand bytes are fetched before either. -/
theorem addWrapsModulo256 : Obligations.AddWrapsModulo256 := by
  unfold Obligations.AddWrapsModulo256
  refine fun a b s => ⟨fun O => rfl, fun ha hb => ?completes, fun ha => ?invalidA, fun ha hb => ?invalidB,
    fun hrun hop hpc => ?truncated⟩
  case completes =>
    have hrule := addRule_of_some (s := s) (registerOf_of_lt ha) (registerOf_of_lt hb)
    have hexec : exec (.add a b) s = _ := exec_of_execRule_ok hrule
    exact ⟨_, hexec, by simp, addRule_frame hrule⟩
  case invalidA => exact exec_of_execRule_error (aluRule_of_none_left .add b a s (registerOf_of_ge ha))
  case invalidB =>
    exact exec_of_execRule_error (aluRule_of_none_right .add a s (registerOf_of_lt ha) (registerOf_of_ge hb))
  case truncated =>
    have hcount : operandCount (Config.params.opc.byte .add) = 2 := by decide
    exact step_of_operands_past_top .add hrun hop (by omega) (by omega)

/-- Settles O17: two valid indices make MUL one write of the product of the old values to register 0, which its frame
completes; the first invalid one raises, and both operand bytes are fetched before either. -/
theorem mulWritesRegisterZero : Obligations.MulWritesRegisterZero := by
  unfold Obligations.MulWritesRegisterZero
  refine fun a b s => ⟨fun O => rfl, fun ha hb => ?completes, fun ha => ?invalidA, fun ha hb => ?invalidB,
    fun hrun hop hpc => ?truncated⟩
  case completes =>
    have hrule := mulRule_of_some (s := s) (registerOf_of_lt ha) (registerOf_of_lt hb)
    have hexec : exec (.mul a b) s = _ := exec_of_execRule_ok hrule
    exact ⟨_, hexec, by simp, mulRule_frame hrule⟩
  case invalidA => exact exec_of_execRule_error (aluRule_of_none_left .multiply b 0 s (registerOf_of_ge ha))
  case invalidB =>
    exact exec_of_execRule_error (aluRule_of_none_right .multiply 0 s (registerOf_of_lt ha) (registerOf_of_ge hb))
  case truncated =>
    have hcount : operandCount (Config.params.opc.byte .mul) = 2 := by decide
    exact step_of_operands_past_top .mul hrun hop (by omega) (by omega)

/-- Settles O33: the ALU is the arithmetic of bit vectors, and the frames of ADD and MUL leave no room for a record of a
reduction. -/
theorem arithmeticLaws : Obligations.ArithmeticLaws := by
  unfold Obligations.ArithmeticLaws
  refine ⟨fun a b => ?add, fun a => ?units, fun a b => ?multiply, fun a b => ?compare, fun P s => ?stackPointer,
    fun s n h => State.advance_pc_toNat h, fun a b s t h => addRule_frame h, fun a b s t h => mulRule_frame h⟩
  case add => exact ⟨a + b, rfl, BitVec.toNat_add a b, congrArg AluResult.value (BitVec.add_comm b a)⟩
  case units =>
    exact ⟨congrArg AluResult.value (BitVec.add_zero a), congrArg AluResult.value BitVec.mul_zero,
      congrArg AluResult.value (BitVec.mul_one a)⟩
  case multiply => exact ⟨a * b, rfl, BitVec.toNat_mul a b, congrArg AluResult.value (BitVec.mul_comm b a)⟩
  case compare =>
    exact ⟨compareFlags a b, compareFlags b a, rfl, rfl, compareFlags_less a b, compareFlags_greater a b,
      compareFlags_equal a b, (compareFlags_less a b).trans (compareFlags_greater b a).symm⟩
  case stackPointer => exact ⟨State.decSp_sp_toNat P s, State.incSp_sp_toNat P s⟩

end Sys2Proof.Machine
end

section
/-! PROOFS. PUSH and POP of a register other than the stack pointer's (43_stack.md R100, R101). -/

namespace Sys2Proof.Machine

/-- Writing another register leaves the stack pointer. -/
theorem State.setReg_sp_of_ne {P : Params} {i : Fin 8} (s : State) (v : Byte) (hi : i ≠ P.spIndex) :
    (s.setReg i v).sp P = s.sp P := by
  rw [State.sp_def, State.setReg_regs, RegFile.get_set, if_neg hi.symm, State.sp_def]

/-- Moving the stack pointer down leaves every other register. -/
theorem State.decSp_get_of_ne {P : Params} {j : Fin 8} (s : State) (hj : j ≠ P.spIndex) :
    (s.decSp P).regs.get j = s.regs.get j := by
  rw [State.decSp_regs, RegFile.get_set, if_neg hj]

/-- Moving the stack pointer up leaves every other register. -/
theorem State.incSp_get_of_ne {P : Params} {j : Fin 8} (s : State) (hj : j ≠ P.spIndex) :
    (s.incSp P).regs.get j = s.regs.get j := by
  rw [State.incSp_regs, RegFile.get_set, if_neg hj]

section
variable {P : Params} {a : Byte} {s t : State} {i : Fin 8}

theorem pushRule_of_some (h : registerOf a = some i) : pushRule P a s =
    .ok (((s.decSp P).setByte ((s.decSp P).sp P).toNat ((s.decSp P).regs.get i)).advance 1) := by
  rw [pushRule_eq, h, State.decSp_sp]

theorem pushRule_of_none (h : registerOf a = none) :
    pushRule P a s = .error (.addressingError .regRead (a.setWidth 9)) := by
  rw [pushRule_eq, h]

theorem popRule_of_some (h : registerOf a = some i) :
    popRule P a s = .ok (((s.setReg i (s.mem.read (s.sp P).toNat)).incSp P).advance 1) := by
  rw [popRule_eq, h]

theorem popRule_of_none (h : registerOf a = none) :
    popRule P a s = .error (.addressingError .regWrite (a.setWidth 9)) := by
  rw [popRule_eq, h]

/-- PUSH completes only when its index is valid. -/
theorem pushRule_ok_operand (h : pushRule P a s = .ok t) : ∃ i, registerOf a = some i := by
  cases ha : registerOf a with
  | none => cases (pushRule_of_none ha).symm.trans h
  | some i => exact ⟨i, rfl⟩

/-- POP completes only when its index is valid. -/
theorem popRule_ok_operand (h : popRule P a s = .ok t) : ∃ i, registerOf a = some i := by
  cases ha : registerOf a with
  | none => cases (popRule_of_none ha).symm.trans h
  | some i => exact ⟨i, rfl⟩

/-- A completed PUSH has moved the stack pointer down, whatever its operand. -/
theorem pushRule_sp (h : pushRule P a s = .ok t) : t.sp P = (s.decSp P).sp P := by
  obtain ⟨i, ha⟩ := pushRule_ok_operand h
  cases (pushRule_of_some ha).symm.trans h
  rfl

/-- A completed PUSH stores its register, read after the decrement, at the new stack pointer. -/
theorem pushRule_read_sp (hmem : s.mem.wf = true) (ha : registerOf a = some i) (h : pushRule P a s = .ok t) :
    t.mem.read (t.sp P).toNat = (s.decSp P).regs.get i := by
  rw [pushRule_sp h]
  cases (pushRule_of_some ha).symm.trans h
  exact Memory.read_write_self _ hmem

/-- A completed PUSH leaves every byte but the one at the new stack pointer. -/
theorem pushRule_read_ne (h : pushRule P a s = .ok t) {x : Nat} (hx : x ≠ (t.sp P).toNat) :
    t.mem.read x = s.mem.read x := by
  rw [pushRule_sp h] at hx
  obtain ⟨i, ha⟩ := pushRule_ok_operand h
  cases (pushRule_of_some ha).symm.trans h
  exact State.read_setByte_ne (s.decSp P) _ hx

/-- What a completed PUSH leaves outside memory: everything but the stack pointer and `pc`. -/
theorem pushRule_frame (h : pushRule P a s = .ok t) :
    (∀ j : Fin 8, j ≠ P.spIndex → t.regs.get j = s.regs.get j) ∧ t.pc = s.pc + 2 ∧ t.flags = s.flags ∧
      t.out = s.out ∧ t.run = s.run ∧ t.fault = s.fault := by
  obtain ⟨i, ha⟩ := pushRule_ok_operand h
  cases (pushRule_of_some ha).symm.trans h
  exact ⟨fun j hj => s.decSp_get_of_ne hj, rfl, rfl, rfl, rfl, rfl⟩

/-- POP into another register moves the stack pointer up. -/
theorem popRule_sp (ha : registerOf a = some i) (hi : i ≠ P.spIndex) (h : popRule P a s = .ok t) :
    t.sp P = (s.incSp P).sp P := by
  cases (popRule_of_some ha).symm.trans h
  calc
    ((s.setReg i _).incSp P).sp P = (s.setReg i _).sp P + 1 := State.incSp_sp _ P
    _ = (s.incSp P).sp P := by rw [State.setReg_sp_of_ne s _ hi, State.incSp_sp]

/-- POP into another register leaves the byte at the old stack pointer there. -/
theorem popRule_get (ha : registerOf a = some i) (hi : i ≠ P.spIndex) (h : popRule P a s = .ok t) :
    t.regs.get i = s.mem.read (s.sp P).toNat := by
  cases (popRule_of_some ha).symm.trans h
  rw [State.advance_regs, State.incSp_get_of_ne _ hi, State.setReg_regs, RegFile.get_set, if_pos rfl]

/-- What a completed POP leaves: everything but its register, the stack pointer and `pc`. -/
theorem popRule_frame (h : popRule P a s = .ok t) :
    (∀ j : Fin 8, j.val ≠ a.toNat → j ≠ P.spIndex → t.regs.get j = s.regs.get j) ∧ t.pc = s.pc + 2 ∧
      t.flags = s.flags ∧ t.mem = s.mem ∧ t.out = s.out ∧ t.run = s.run ∧ t.fault = s.fault := by
  obtain ⟨i, ha⟩ := popRule_ok_operand h
  cases (popRule_of_some ha).symm.trans h
  refine ⟨fun j hja hj => ?_, rfl, rfl, rfl, rfl, rfl, rfl⟩
  have hne : j ≠ i := fun e => hja (e ▸ (registerOf_eq_some ha).symm)
  rw [State.advance_regs, State.incSp_get_of_ne _ hj, State.setReg_regs, RegFile.get_set, if_neg hne]

end

/-- Settles O19: a valid index makes PUSH a decrement and one store at the new stack pointer, and the decrement does not
touch the register stored; any other index raises, and the operand byte is fetched before either. -/
theorem pushStoresBelowStackPointer : Obligations.PushStoresBelowStackPointer := by
  unfold Obligations.PushStoresBelowStackPointer
  refine fun a s hmem => ⟨fun O => rfl, fun hlt hsp => ?completes, fun hge => ?invalid, fun hrun hop hpc => ?truncated⟩
  case completes =>
    have ha := registerOf_of_lt hlt
    have hne : (⟨a.toNat, hlt⟩ : Fin 8) ≠ Config.params.spIndex := fun e => hsp (congrArg Fin.val e)
    obtain ⟨t, hrule⟩ : ∃ t, pushRule Config.params a s = .ok t := ⟨_, pushRule_of_some ha⟩
    have htop : ((s.decSp Config.params).stackTop Config.params).toNat = (t.sp Config.params).toNat := by
      rw [State.stackTop_toNat, pushRule_sp hrule]
    refine ⟨t, exec_of_execRule_ok hrule, ?newSp, ?stored, fun x hx => ?otherBytes, htop, pushRule_frame hrule⟩
    case newSp => rw [pushRule_sp hrule, State.decSp_sp_toNat]
    case stored => rw [pushRule_read_sp hmem ha hrule, State.decSp_get_of_ne s hne]
    case otherBytes => exact pushRule_read_ne hrule (htop ▸ hx)
  case invalid => exact exec_of_execRule_error (pushRule_of_none (registerOf_of_ge hge))
  case truncated =>
    have hcount : operandCount (Config.params.opc.byte .push) = 1 := by decide
    exact step_of_operands_past_top .push hrun hop (by omega) (by omega)

/-- Settles O20: a valid index makes POP one register write and an increment, neither of which touches the other's
register; any other index raises, and the operand byte is fetched before either. -/
theorem popLoadsTopOfStack : Obligations.PopLoadsTopOfStack := by
  unfold Obligations.PopLoadsTopOfStack
  refine fun a s => ⟨fun O => rfl, fun hlt hsp => ?completes, fun hge => ?invalid, fun hrun hop hpc => ?truncated⟩
  case completes =>
    have ha := registerOf_of_lt hlt
    have hne : (⟨a.toNat, hlt⟩ : Fin 8) ≠ Config.params.spIndex := fun e => hsp (congrArg Fin.val e)
    obtain ⟨t, hrule⟩ : ∃ t, popRule Config.params a s = .ok t := ⟨_, popRule_of_some ha⟩
    refine ⟨t, exec_of_execRule_ok hrule, popRule_get ha hne hrule, ?newSp, popRule_frame hrule⟩
    case newSp => rw [popRule_sp ha hne hrule, State.incSp_sp_toNat]
  case invalid => exact exec_of_execRule_error (popRule_of_none (registerOf_of_ge hge))
  case truncated =>
    have hcount : operandCount (Config.params.opc.byte .pop) = 1 := by decide
    exact step_of_operands_past_top .pop hrun hop (by omega) (by omega)

end Sys2Proof.Machine
end

section
/-! PROOFS. RET (44_subroutine.md R106). -/

namespace Sys2Proof.Machine

section
variable {P : Params} {s t : State}

/-- RET continues at the byte on top of the stack, widened without change. -/
theorem retRule_pc_toNat (h : retRule P s = .ok t) : t.pc.toNat = (s.mem.read (s.sp P).toNat).toNat := by
  cases (retRule_eq P s).symm.trans h
  exact BitVec.toNat_setWidth_of_le (by decide)

/-- RET moves the stack pointer up. -/
theorem retRule_sp (h : retRule P s = .ok t) : t.sp P = (s.incSp P).sp P := by
  cases (retRule_eq P s).symm.trans h
  rfl

/-- What RET leaves: everything but the stack pointer and `pc`. -/
theorem retRule_frame (h : retRule P s = .ok t) :
    (∀ j : Fin 8, j ≠ P.spIndex → t.regs.get j = s.regs.get j) ∧
      t.flags = s.flags ∧ t.mem = s.mem ∧ t.out = s.out ∧ t.run = s.run ∧ t.fault = s.fault := by
  cases (retRule_eq P s).symm.trans h
  exact ⟨fun j hj => s.incSp_get_of_ne hj, rfl, rfl, rfl, rfl, rfl⟩

end

/-- Settles O24: the byte SP addresses is always in bounds, so RET completes at every state, and it is one
read, an increment and the write of `pc`. -/
theorem retPopsProgramCounter : Obligations.RetPopsProgramCounter := by
  unfold Obligations.RetPopsProgramCounter
  refine fun s => ⟨fun O => rfl, ?completes⟩
  obtain ⟨t, hrule⟩ : ∃ t, retRule Config.params s = .ok t := ⟨_, retRule_eq Config.params s⟩
  refine ⟨t, exec_of_execRule_ok hrule, retRule_pc_toNat hrule, ?newSp, retRule_frame hrule⟩
  rw [retRule_sp hrule, State.incSp_sp_toNat]

end Sys2Proof.Machine
end

section
/-! PROOFS. `DecodeError` (60_exceptions.md R120): the opcode match raises it, and no execute rule does. -/

namespace Sys2Proof

/-- The opcode match fails exactly on the bytes that are no opcode. Unlike `decodeOpcode_eq_none_iff` this asks nothing
of the map: which of the mnemonics is found does not matter here. -/
theorem decodeOpcode_eq_none_iff_byte_ne {O : OpcodeMap} {ir : Byte} :
    decodeOpcode O ir = none ↔ ∀ m : Mnemonic, O.byte m ≠ ir := by
  have hall : ∀ m : Mnemonic, m ∈ Mnemonic.all := fun m => by cases m <;> decide
  simp [decodeOpcode, List.find?_eq_none, hall]

end Sys2Proof

namespace Sys2Proof.Machine

/-- A byte in memory that is no opcode raises at decode, before any operand is fetched. -/
theorem fetchWith_of_unknown_opcode {O : OpcodeMap} {s : State} (hpc : s.pc.toNat < 256)
    (hunknown : ∀ m : Mnemonic, O.byte m ≠ s.mem.read s.pc.toNat) :
    fetchWith O s = .error (.decodeError (s.mem.read s.pc.toNat) (s.pc.setWidth 8)) := by
  simp only [fetchWith, State.memRead_of_lt hpc, except_ok_bind, decodeOpcode_eq_none_iff_byte_ne.2 hunknown]

/-- A fetch that raises `DecodeError` has read a byte that is no opcode, and records it with its address. -/
theorem fetchWith_decodeError {O : OpcodeMap} {s : State} {opcode addr : Byte}
    (h : fetchWith O s = .error (.decodeError opcode addr)) :
    opcode = s.mem.read s.pc.toNat ∧ addr.toNat = s.pc.toNat ∧ ∀ m : Mnemonic, O.byte m ≠ opcode := by
  obtain ⟨-, hrecord⟩ | ⟨hpc, hunknown, hrecord⟩ | ⟨-, hrecord⟩ := fetchWith_error h
  · cases hrecord
  · cases hrecord
    refine ⟨rfl, ?_, decodeOpcode_eq_none_iff_byte_ne.1 hunknown⟩
    rw [BitVec.toNat_setWidth]
    exact Nat.mod_eq_of_lt hpc
  · cases hrecord

theorem cmpRule_of_some {a b : Byte} {s : State} {i j : Fin 8} (ha : registerOf a = some i)
    (hb : registerOf b = some j) :
    cmpRule a b s = .ok ((s.setFlags (compareFlags (s.regs.get i) (s.regs.get j))).advance 2) := by
  rw [cmpRule_eq, ha, hb]

/-- An ALU instruction has two valid indices, or raises for the first that is not. -/
theorem aluRule_operands_or_error (op : AluOp) (a b dest : Byte) (s : State) :
    (∃ i j, registerOf a = some i ∧ registerOf b = some j) ∨
      ∃ access v, aluRule op a b dest s = .error (.addressingError access v) := by
  cases ha : registerOf a with
  | none => exact .inr ⟨_, _, aluRule_of_none_left op b dest s ha⟩
  | some i =>
    cases hb : registerOf b with
    | none => exact .inr ⟨_, _, aluRule_of_none_right op dest s ha hb⟩
    | some j => exact .inl ⟨i, j, rfl, rfl⟩

section
variable {P : Params} {a : Byte} {s : State}

theorem callRule_of_return_past_top (h : 254 ≤ s.pc.toNat) :
    callRule P a s = .error (.addressingError .memWrite (BitVec.ofNat 9 (s.pc.toNat + 2))) := by
  rw [callRule_eq, if_pos h]

theorem callRule_of_none (hpc : ¬ 254 ≤ s.pc.toNat) (h : registerOf a = none) :
    callRule P a s = .error (.addressingError .regRead (a.setWidth 9)) := by
  rw [callRule_eq, if_neg hpc, h]

theorem callRule_of_some {i : Fin 8} (hpc : ¬ 254 ≤ s.pc.toNat) (h : registerOf a = some i) : callRule P a s =
    .ok (((s.decSp P).setByte ((s.decSp P).sp P).toNat (BitVec.ofNat 8 (s.pc.toNat + 2))).setPc
      (((s.decSp P).regs.get i).setWidth 9)) := by
  rw [callRule_eq, if_neg hpc, h, State.decSp_sp]

end

/-- An execute rule completes and leaves the fault record, or raises `AddressingError`: "no recognised instruction can
raise" `DecodeError` (60_exceptions.md R120). -/
theorem execRule_keeps_fault_or_addressingError (P : Params) (i : Instr) (s : State) :
    (∃ t, execRule P i s = .ok t ∧ t.fault = s.fault) ∨
      ∃ access v, execRule P i s = .error (.addressingError access v) := by
  cases i with
  | ldi a v =>
    cases ha : registerOf a with
    | none => exact .inr ⟨_, _, ldiRule_of_none ha⟩
    | some r => exact .inl ⟨_, ldiRule_of_some ha, rfl⟩
  | prn a =>
    cases ha : registerOf a with
    | none => exact .inr ⟨_, _, prnRule_of_none ha⟩
    | some r => exact .inl ⟨_, prnRule_of_some ha, rfl⟩
  | hlt => exact .inl ⟨_, rfl, rfl⟩
  | push a =>
    cases ha : registerOf a with
    | none => exact .inr ⟨_, _, pushRule_of_none ha⟩
    | some r => exact .inl ⟨_, pushRule_of_some ha, rfl⟩
  | pop a =>
    cases ha : registerOf a with
    | none => exact .inr ⟨_, _, popRule_of_none ha⟩
    | some r => exact .inl ⟨_, popRule_of_some ha, rfl⟩
  | call a =>
    by_cases hpc : 254 ≤ s.pc.toNat
    · exact .inr ⟨_, _, callRule_of_return_past_top hpc⟩
    · cases ha : registerOf a with
      | none => exact .inr ⟨_, _, callRule_of_none hpc ha⟩
      | some r => exact .inl ⟨_, callRule_of_some hpc ha, rfl⟩
  | ret => exact .inl ⟨_, retRule_eq P s, rfl⟩
  | add a b =>
    obtain ⟨_, _, ha, hb⟩ | herror := aluRule_operands_or_error .add a b a s
    · exact .inl ⟨_, addRule_of_some ha hb, rfl⟩
    · exact .inr herror
  | mul a b =>
    obtain ⟨_, _, ha, hb⟩ | herror := aluRule_operands_or_error .multiply a b 0 s
    · exact .inl ⟨_, mulRule_of_some ha hb, rfl⟩
    · exact .inr herror
  | cmp a b =>
    obtain ⟨_, _, ha, hb⟩ | herror := aluRule_operands_or_error .compare a b a s
    · exact .inl ⟨_, cmpRule_of_some ha hb, rfl⟩
    · exact .inr herror

/-- The fault record after an instruction: the one before it, or an `AddressingError`. -/
theorem execWith_fault {P : Params} {i : Instr} {s t : State} (h : execWith P i s = .next t) :
    t.fault = s.fault ∨ ∃ access v, t.fault = some (.addressingError access v) := by
  obtain ⟨u, hrule, hkept⟩ | ⟨access, v, hrule⟩ := execRule_keeps_fault_or_addressingError P i s
  all_goals
    rw [execWith, hrule] at h
    cases h
  · exact .inl hkept
  · exact .inr ⟨access, v, rfl⟩

/-- A step that leaves a `DecodeError` where there was no fault took it from the fetch. -/
theorem fetchWith_of_stepWith_decodeError {P : Params} {s t : State} {opcode addr : Byte} (hrun : s.run = .running)
    (hnone : s.fault = none) (h : stepWith P s = .next t) (hfault : t.fault = some (.decodeError opcode addr)) :
    fetchWith P.opc s = .error (.decodeError opcode addr) := by
  obtain ⟨hstopped, -⟩ | ⟨-, f, hfetch, rfl⟩ | ⟨-, i, -, hexec⟩ := stepWith_cases h
  · exact absurd hrun hstopped
  · cases hfault
    exact hfetch
  · obtain hkept | ⟨access, v, haddressing⟩ := execWith_fault hexec
    · cases (hfault.symm.trans hkept).trans hnone
    · cases hfault.symm.trans haddressing

/-- Settles O8: the fetch raises `DecodeError` on exactly the bytes the opcode match does not find, and an instruction
that executes keeps the fault record or leaves an `AddressingError`. -/
theorem unknownOpcodeRaisesDecodeError : Obligations.UnknownOpcodeRaisesDecodeError := by
  unfold Obligations.UnknownOpcodeRaisesDecodeError
  refine ⟨fun P s hrun hpc hunknown => ?raises, fun P s t opcode addr hrun hnone hstep hfault => ?onlyThen⟩
  case raises =>
    rw [BitVec.ofNat_toNat]
    exact stepWith_of_fetch_error hrun (fetchWith_of_unknown_opcode hpc hunknown)
  case onlyThen => exact fetchWith_decodeError (fetchWith_of_stepWith_decodeError hrun hnone hstep hfault)

end Sys2Proof.Machine
end

section
/-! PROOFS. The round trip between the decoder and the encoder (30_encoding.md sections 1 and 3). -/

namespace Sys2Proof

/-- The operand bytes of an assembled instruction are as many of the two fetched ones as its format has. -/
theorem operandBytes_assemble {O : OpcodeMap} (h : O.wf = true) (m : Mnemonic) (a b : Byte) :
    (m.assemble a b).operandBytes = [a, b].take (operandCount (O.byte m)) := by
  rw [operandCount_byte h]
  cases m <;> rfl

/-- The encoding of an assembled instruction starts with its mnemonic's byte. -/
theorem encodeWith_assemble (O : OpcodeMap) (m : Mnemonic) (a b : Byte) :
    encodeWith O (m.assemble a b) = O.byte m :: (m.assemble a b).operandBytes := by
  rw [encodeWith, Mnemonic.assemble_mnemonic]

/-- An instruction has as many operand bytes as bits 7 to 6 of its opcode byte say. -/
theorem length_operandBytes {O : OpcodeMap} (h : O.wf = true) (i : Instr) :
    i.operandBytes.length = operandCount (O.byte i.mnemonic) := by
  rw [operandCount_byte h]
  cases i <;> simp [Instr.operandBytes, Instr.mnemonic, Mnemonic.highNibble]

/-- The encoding is the opcode byte and the operand bytes of its format. -/
theorem length_encodeWith {O : OpcodeMap} (h : O.wf = true) (i : Instr) :
    (encodeWith O i).length = operandCount (O.byte i.mnemonic) + 1 := by
  rw [encodeWith, List.length_cons, length_operandBytes h]

/-- At most two operand bytes are taken back, in their order, whatever follows them. -/
theorem takeOperands_append {ops : List Byte} (hlen : ops.length ≤ 2) (rest : List Byte) :
    takeOperands ops.length (ops ++ rest) = .ok (ops.getD 0 0, ops.getD 1 0, rest) := by
  match ops, hlen with
  | [], _ => rfl
  | [_], _ => rfl
  | [_, _], _ => rfl

/-- An instruction is assembled from its own operand bytes. -/
theorem assemble_operandBytes (i : Instr) :
    i.mnemonic.assemble (i.operandBytes.getD 0 0) (i.operandBytes.getD 1 0) = i := by
  cases i <;> rfl

/-- Operands taken from a byte sequence stood at its front. -/
theorem eq_append_of_takeOperands {n : Nat} (hn : n ≤ 2) {bytes rest : List Byte} {opA opB : Byte}
    (h : takeOperands n bytes = .ok (opA, opB, rest)) : bytes = [opA, opB].take n ++ rest := by
  match n, bytes, h with
  | 0, _, rfl => rfl
  | 1, _ :: _, rfl => rfl
  | 2, _ :: _ :: _, rfl => rfl
  | n + 3, _, _ => omega

/-- Everything an accepting decoder has found: an opcode byte, then the operands of its format. -/
theorem decodeWith_ok {O : OpcodeMap} {bytes rest : List Byte} {i : Instr} (h : decodeWith O bytes = .ok (i, rest)) :
    ∃ m more opA opB, bytes = O.byte m :: more ∧ takeOperands (operandCount (O.byte m)) more = .ok (opA, opB, rest) ∧
      i = m.assemble opA opB := by
  unfold decodeWith at h
  split at h
  · cases h
  · next ir more =>
    split at h
    · cases h
    · next m hm =>
      split at h
      · cases h
      · next opA opB taken htake =>
        cases h
        rw [← byte_of_decodeOpcode hm] at htake ⊢
        exact ⟨m, more, opA, opB, rfl, htake, rfl⟩

/-- Settles O1: the opcode byte is recognised as its mnemonic, and the operand bytes are taken back by its count. -/
theorem decodeOfEncodeIsIdentity : Obligations.DecodeOfEncodeIsIdentity := by
  unfold Obligations.DecodeOfEncodeIsIdentity
  intro O h i rest
  have hle : i.operandBytes.length ≤ 2 := length_operandBytes h i ▸ operandCount_byte_le_two h i.mnemonic
  have htake := takeOperands_append hle rest
  rw [length_operandBytes h] at htake
  have hdecode := decodeWith_of_takeOperands (decodeOpcode_byte h i.mnemonic) htake
  rwa [assemble_operandBytes] at hdecode

/-- Settles O2: what the decoder took is the opcode byte of the mnemonic and the operand bytes of its format. -/
theorem encodeOfDecodeIsIdentity : Obligations.EncodeOfDecodeIsIdentity := by
  unfold Obligations.EncodeOfDecodeIsIdentity
  intro O h bytes i rest hdecode
  obtain ⟨m, more, opA, opB, rfl, htake, rfl⟩ := decodeWith_ok hdecode
  rw [encodeWith_assemble, operandBytes_assemble h, List.cons_append,
    ← eq_append_of_takeOperands (operandCount_byte_le_two h m) htake]

/-- Different instructions have different encodings. -/
theorem encodeWith_injective {O : OpcodeMap} (h : O.wf = true) {i j : Instr} (e : encodeWith O i = encodeWith O j) :
    i = j := by
  have hi := decodeOfEncodeIsIdentity O h i []
  rw [e, decodeOfEncodeIsIdentity O h j []] at hi
  cases hi
  rfl

/-- Operand bytes the format does not have do not matter. -/
theorem assemble_congr {O : OpcodeMap} (h : O.wf = true) {m : Mnemonic} {a b c d : Byte}
    (e : [a, b].take (operandCount (O.byte m)) = [c, d].take (operandCount (O.byte m))) :
    m.assemble a b = m.assemble c d := by
  apply encodeWith_injective h
  rw [encodeWith_assemble, encodeWith_assemble, operandBytes_assemble h, operandBytes_assemble h, e]

/-- Settles O4: the decoder is computed on each word. -/
theorem wordsWrittenOutDecode : Obligations.WordsWrittenOutDecode := by
  unfold Obligations.WordsWrittenOutDecode
  decide

end Sys2Proof
end

section
/-! PROOFS. The fetch answers an instruction exactly when its encoding stands at `pc` and ends inside memory
(40_fetch_decode_execute.md section 2). -/

namespace Sys2Proof.Machine

/-- The bytes stand at `pc` and after, all of them inside memory. -/
def State.holdsAtPc (s : State) (bytes : List Byte) : Prop :=
  s.pc.toNat + bytes.length ≤ 256 ∧ ∀ (k : Nat) (hk : k < bytes.length), s.mem.read (s.pc.toNat + k) = bytes[k]

/-- A recognised opcode whose operand bytes lie inside memory is fetched with them. -/
theorem fetchWith_of_opcode {O : OpcodeMap} (h : O.wf = true) {s : State} {m : Mnemonic}
    (hm : O.byte m = s.mem.read s.pc.toNat) (hfits : s.pc.toNat + operandCount (O.byte m) < 256) :
    fetchWith O s = .ok (m.assemble (s.mem.read (s.pc.toNat + 1)) (s.mem.read (s.pc.toNat + 2))) := by
  have hpc : s.pc.toNat < 256 := by omega
  have hle := operandCount_byte_le_two h m
  have hone : 1 ≤ operandCount (O.byte m) → s.memRead (s.pc + 1) = .ok (s.mem.read (s.pc.toNat + 1)) := fun _ => by
    rw [State.memRead_of_lt (by rw [addr_add_one hpc]; omega), addr_add_one hpc]
  have htwo : operandCount (O.byte m) = 2 → s.memRead (s.pc + 2) = .ok (s.mem.read (s.pc.toNat + 2)) := fun _ => by
    rw [State.memRead_of_lt (by rw [addr_add_two hpc]; omega), addr_add_two hpc]
  simp only [fetchWith, State.memRead_of_lt hpc, except_ok_bind, ← hm, decodeOpcode_byte h m]
  obtain hn | hn | hn : operandCount (O.byte m) = 0 ∨ operandCount (O.byte m) = 1 ∨ operandCount (O.byte m) = 2 := by
    omega
  · rw [hn]
    exact congrArg Except.ok (assemble_congr h (by rw [hn]; rfl))
  · rw [if_pos (by omega), hone (by omega), hn]
    exact congrArg Except.ok (assemble_congr h (by rw [hn]; rfl))
  · rw [if_pos (by omega), hone (by omega), except_ok_bind, if_pos hn, htwo hn]
    rfl

/-- A fetch that answers an instruction has read its encoding at `pc`, all of it inside memory. -/
theorem holdsAtPc_of_fetchWith {O : OpcodeMap} (h : O.wf = true) {s : State} {i : Instr} (hf : fetchWith O s = .ok i) :
    s.holdsAtPc (encodeWith O i) := by
  obtain ⟨hpc, hop, hfitsA, hfitsB⟩ := fetchWith_ok hf
  have hle := operandCount_byte_le_two h i.mnemonic
  have hfits : s.pc.toNat + operandCount (O.byte i.mnemonic) < 256 := by omega
  have hi : i = i.mnemonic.assemble (s.mem.read (s.pc.toNat + 1)) (s.mem.read (s.pc.toNat + 2)) :=
    Except.ok.inj (hf.symm.trans (fetchWith_of_opcode h hop hfits))
  refine ⟨by rw [length_encodeWith h]; omega, fun k hk => ?_⟩
  rw [length_encodeWith h] at hk
  have hbytes : encodeWith O i = [s.mem.read s.pc.toNat, s.mem.read (s.pc.toNat + 1),
      s.mem.read (s.pc.toNat + 2)].take (operandCount (O.byte i.mnemonic) + 1) := by
    rw [hi, encodeWith_assemble, operandBytes_assemble h, Mnemonic.assemble_mnemonic, hop, List.take_succ_cons]
  obtain rfl | rfl | rfl : k = 0 ∨ k = 1 ∨ k = 2 := by omega
  all_goals simp [hbytes]

/-- An instruction whose encoding stands at `pc` is fetched. -/
theorem fetchWith_of_holdsAtPc {O : OpcodeMap} (h : O.wf = true) {s : State} {i : Instr}
    (hi : s.holdsAtPc (encodeWith O i)) : fetchWith O s = .ok i := by
  obtain ⟨hfits, hbytes⟩ := hi
  have hlen := length_encodeWith h i
  have hop : O.byte i.mnemonic = s.mem.read s.pc.toNat := (hbytes 0 (by omega)).symm
  have hf := fetchWith_of_opcode h hop (by omega)
  obtain ⟨-, hfetched⟩ := holdsAtPc_of_fetchWith h hf
  rw [hf]
  refine congrArg Except.ok (encodeWith_injective h (List.ext_getElem ?length fun k hk hk' => ?bytes))
  case length => rw [length_encodeWith h, Mnemonic.assemble_mnemonic, hlen]
  case bytes => rw [← hfetched k hk, hbytes k hk']

/-- The window holds what stands at `pc`: bytes at its front stand there. -/
theorem holdsAtPc_of_fetchWindow {s : State} {bytes rest : List Byte} (hne : bytes ≠ [])
    (h : s.fetchWindow = bytes ++ rest) : s.holdsAtPc bytes := by
  have hlen := congrArg List.length h
  simp only [State.fetchWindow, List.length_map, List.length_range, List.length_append] at hlen
  have hpos := List.length_pos_iff.2 hne
  refine ⟨by omega, fun k hk => ?_⟩
  have hk' : k < s.fetchWindow.length := by rw [h, List.length_append]; omega
  calc
    s.mem.read (s.pc.toNat + k) = s.fetchWindow[k] := by simp [State.fetchWindow]
    _ = bytes[k] := by simp [h, hk]

/-- Settles O6: the encoding at `pc` is what the fetch answers. -/
theorem stepRunsTheInstructionAtPc : Obligations.StepRunsTheInstructionAtPc := by
  unfold Obligations.StepRunsTheInstructionAtPc
  exact fun P h i s hrun hfits hbytes => stepWith_of_fetch hrun (fetchWith_of_holdsAtPc h ⟨hfits, hbytes⟩)

/-- Settles O5: what the window decodes to has its encoding at `pc`. -/
theorem stepRunsDecodedInstruction : Obligations.StepRunsDecodedInstruction := by
  unfold Obligations.StepRunsDecodedInstruction
  intro s i rest hrun hdecode
  have hwf : Config.params.opc.wf = true := by decide
  have hwindow := encodeOfDecodeIsIdentity Config.params.opc hwf s.fetchWindow i rest hdecode
  have hat := holdsAtPc_of_fetchWindow (List.cons_ne_nil _ _) hwindow
  rw [step_eq_stepWith, exec_eq_execWith]
  exact stepWith_of_fetch hrun (fetchWith_of_holdsAtPc hwf hat)

/-- Settles O9: `pc` itself is out of bounds at 256, and at 255 and 254 an operand byte is. -/
theorem fetchPastTheTopRaises : Obligations.FetchPastTheTopRaises := by
  unfold Obligations.FetchPastTheTopRaises
  refine fun P h s hrun => ⟨fun hpc => ?opcode, fun m hm => ⟨fun hpc hcount => ?operandA, fun hpc hcount => ?operandB⟩⟩
  case opcode =>
    have hpc' : s.pc = 256 := BitVec.eq_of_toNat_eq hpc
    exact stepWith_of_fetch_error hrun (by rw [fetchWith, State.memRead_of_ge hpc.ge, except_error_bind, hpc'])
  case operandA => exact stepWith_of_fetch_error hrun (fetchWith_of_operands_past_top h hm (by omega) (by omega))
  case operandB => exact stepWith_of_fetch_error hrun (fetchWith_of_operands_past_top h hm (by omega) (by omega))

end Sys2Proof.Machine
end

section
/-! PROOFS. Everything an instruction can do, said once for every choice of the parameters: it completes with the effect
of its rule, or raises and leaves the state to the fault entry (60_exceptions.md R122, R124). -/

namespace Sys2Proof.Machine

/-- The instruction completes at `s`, with this next state. -/
inductive Completes (P : Params) (s : State) : Instr → State → Prop
  | ldi {a v : Byte} {r : Fin 8} (ha : registerOf a = some r) : Completes P s (.ldi a v) ((s.setReg r v).advance 2)
  | prn {a : Byte} {r : Fin 8} (ha : registerOf a = some r) :
      Completes P s (.prn a) ((s.emit (s.regs.get r)).advance 1)
  | hlt : Completes P s .hlt (s.halt.setPc (s.pc + BitVec.ofNat 9 P.hltPcDelta.val))
  | push {a : Byte} {r : Fin 8} (ha : registerOf a = some r) : Completes P s (.push a)
      (((s.decSp P).setByte ((s.decSp P).sp P).toNat ((s.decSp P).regs.get r)).advance 1)
  | pop {a : Byte} {r : Fin 8} (ha : registerOf a = some r) : Completes P s (.pop a)
      (((s.setReg r (s.mem.read (s.sp P).toNat)).incSp P).advance 1)
  | call {a : Byte} {r : Fin 8} (hpc : s.pc.toNat < 254) (ha : registerOf a = some r) : Completes P s (.call a)
      (((s.decSp P).setByte ((s.decSp P).sp P).toNat (BitVec.ofNat 8 (s.pc.toNat + 2))).setPc
        (((s.decSp P).regs.get r).setWidth 9))
  | ret : Completes P s .ret ((s.incSp P).setPc ((s.mem.read (s.sp P).toNat).setWidth 9))
  | add {a b : Byte} {r q : Fin 8} (ha : registerOf a = some r) (hb : registerOf b = some q) :
      Completes P s (.add a b) ((s.setReg r (s.regs.get r + s.regs.get q)).advance 2)
  | mul {a b : Byte} {r q : Fin 8} (ha : registerOf a = some r) (hb : registerOf b = some q) :
      Completes P s (.mul a b) ((s.setReg 0 (s.regs.get r * s.regs.get q)).advance 2)
  | cmp {a b : Byte} {r q : Fin 8} (ha : registerOf a = some r) (hb : registerOf b = some q) :
      Completes P s (.cmp a b) ((s.setFlags (compareFlags (s.regs.get r) (s.regs.get q))).advance 2)

/-- An instruction that raises in its execute phase with `pc` at this address, and the record it leaves. -/
inductive Raises (pc : Addr) : Instr → FaultRecord → Prop
  | ldi {a v : Byte} (ha : registerOf a = none) : Raises pc (.ldi a v) (.addressingError .regWrite (a.setWidth 9))
  | prn {a : Byte} (ha : registerOf a = none) : Raises pc (.prn a) (.addressingError .regRead (a.setWidth 9))
  | push {a : Byte} (ha : registerOf a = none) : Raises pc (.push a) (.addressingError .regRead (a.setWidth 9))
  | pop {a : Byte} (ha : registerOf a = none) : Raises pc (.pop a) (.addressingError .regWrite (a.setWidth 9))
  | callReturn {a : Byte} (hpc : 254 ≤ pc.toNat) :
      Raises pc (.call a) (.addressingError .memWrite (BitVec.ofNat 9 (pc.toNat + 2)))
  | call {a : Byte} (hpc : pc.toNat < 254) (ha : registerOf a = none) :
      Raises pc (.call a) (.addressingError .regRead (a.setWidth 9))
  | addA {a b : Byte} (ha : registerOf a = none) : Raises pc (.add a b) (.addressingError .regRead (a.setWidth 9))
  | addB {a b : Byte} {r : Fin 8} (ha : registerOf a = some r) (hb : registerOf b = none) :
      Raises pc (.add a b) (.addressingError .regRead (b.setWidth 9))
  | mulA {a b : Byte} (ha : registerOf a = none) : Raises pc (.mul a b) (.addressingError .regRead (a.setWidth 9))
  | mulB {a b : Byte} {r : Fin 8} (ha : registerOf a = some r) (hb : registerOf b = none) :
      Raises pc (.mul a b) (.addressingError .regRead (b.setWidth 9))
  | cmpA {a b : Byte} (ha : registerOf a = none) : Raises pc (.cmp a b) (.addressingError .regRead (a.setWidth 9))
  | cmpB {a b : Byte} {r : Fin 8} (ha : registerOf a = some r) (hb : registerOf b = none) :
      Raises pc (.cmp a b) (.addressingError .regRead (b.setWidth 9))

section
variable {P : Params} {i : Instr} {s t : State} {f : FaultRecord}

theorem execRule_of_completes (h : Completes P s i t) : execRule P i s = .ok t := by
  cases h with
  | ldi ha => exact ldiRule_of_some ha
  | prn ha => exact prnRule_of_some ha
  | hlt => rfl
  | push ha => exact pushRule_of_some ha
  | pop ha => exact popRule_of_some ha
  | call hpc ha => exact callRule_of_some (Nat.not_le.2 hpc) ha
  | ret => exact retRule_eq P s
  | add ha hb => exact addRule_of_some ha hb
  | mul ha hb => exact mulRule_of_some ha hb
  | cmp ha hb => exact cmpRule_of_some ha hb

theorem execRule_of_raises (h : Raises s.pc i f) : execRule P i s = .error f := by
  cases h with
  | ldi ha => exact ldiRule_of_none ha
  | prn ha => exact prnRule_of_none ha
  | push ha => exact pushRule_of_none ha
  | pop ha => exact popRule_of_none ha
  | callReturn hpc => exact callRule_of_return_past_top hpc
  | call hpc ha => exact callRule_of_none (Nat.not_le.2 hpc) ha
  | addA ha => exact aluRule_of_none_left .add _ _ s ha
  | addB ha hb => exact aluRule_of_none_right .add _ s ha hb
  | mulA ha => exact aluRule_of_none_left .multiply _ _ s ha
  | mulB ha hb => exact aluRule_of_none_right .multiply _ s ha hb
  | @cmpA a b ha => exact aluRule_of_none_left .compare b a s ha
  | @cmpB a b r ha hb => exact aluRule_of_none_right .compare a s ha hb

/-- Two indices in the order in which they are checked: the first is invalid, or the second is, or both are valid. -/
theorem registerOf_pair_cases (a b : Byte) :
    registerOf a = none ∨ (∃ r, registerOf a = some r ∧ registerOf b = none) ∨
      ∃ r q, registerOf a = some r ∧ registerOf b = some q := by
  cases registerOf a <;> cases registerOf b <;> simp

/-- Every instruction completes or raises. -/
theorem completes_or_raises (P : Params) (i : Instr) (s : State) :
    (∃ t, Completes P s i t) ∨ ∃ f, Raises s.pc i f := by
  cases i with
  | ldi a v =>
    cases ha : registerOf a with
    | none => exact .inr ⟨_, .ldi ha⟩
    | some r => exact .inl ⟨_, .ldi ha⟩
  | prn a =>
    cases ha : registerOf a with
    | none => exact .inr ⟨_, .prn ha⟩
    | some r => exact .inl ⟨_, .prn ha⟩
  | hlt => exact .inl ⟨_, .hlt⟩
  | push a =>
    cases ha : registerOf a with
    | none => exact .inr ⟨_, .push ha⟩
    | some r => exact .inl ⟨_, .push ha⟩
  | pop a =>
    cases ha : registerOf a with
    | none => exact .inr ⟨_, .pop ha⟩
    | some r => exact .inl ⟨_, .pop ha⟩
  | call a =>
    obtain hpc | hpc := Nat.lt_or_ge s.pc.toNat 254
    · cases ha : registerOf a with
      | none => exact .inr ⟨_, .call hpc ha⟩
      | some r => exact .inl ⟨_, .call hpc ha⟩
    · exact .inr ⟨_, .callReturn hpc⟩
  | ret => exact .inl ⟨_, .ret⟩
  | add a b =>
    obtain ha | ⟨r, ha, hb⟩ | ⟨r, q, ha, hb⟩ := registerOf_pair_cases a b
    exacts [.inr ⟨_, .addA ha⟩, .inr ⟨_, .addB ha hb⟩, .inl ⟨_, .add ha hb⟩]
  | mul a b =>
    obtain ha | ⟨r, ha, hb⟩ | ⟨r, q, ha, hb⟩ := registerOf_pair_cases a b
    exacts [.inr ⟨_, .mulA ha⟩, .inr ⟨_, .mulB ha hb⟩, .inl ⟨_, .mul ha hb⟩]
  | cmp a b =>
    obtain ha | ⟨r, ha, hb⟩ | ⟨r, q, ha, hb⟩ := registerOf_pair_cases a b
    exacts [.inr ⟨_, .cmpA ha⟩, .inr ⟨_, .cmpB ha hb⟩, .inl ⟨_, .cmp ha hb⟩]

theorem execRule_eq_ok_iff : execRule P i s = .ok t ↔ Completes P s i t := by
  refine ⟨fun h => ?_, execRule_of_completes⟩
  obtain ⟨u, hu⟩ | ⟨f, hf⟩ := completes_or_raises P i s
  · cases h.symm.trans (execRule_of_completes hu)
    exact hu
  · cases h.symm.trans (execRule_of_raises hf)

theorem execRule_eq_error_iff : execRule P i s = .error f ↔ Raises s.pc i f := by
  refine ⟨fun h => ?_, execRule_of_raises⟩
  obtain ⟨u, hu⟩ | ⟨g, hg⟩ := completes_or_raises P i s
  · cases h.symm.trans (execRule_of_completes hu)
  · cases h.symm.trans (execRule_of_raises hg)
    exact hg

theorem execWith_of_completes (h : Completes P s i t) : execWith P i s = .next t :=
  transact_eq_next.2 (.inl (execRule_of_completes h))

theorem execWith_of_raises (h : Raises s.pc i f) : execWith P i s = .next (s.raise f) :=
  transact_eq_next.2 (.inr ⟨f, execRule_of_raises h, rfl⟩)

/-- Everything `execWith` can answer. -/
theorem execWith_eq_next_iff :
    execWith P i s = .next t ↔ Completes P s i t ∨ ∃ f, Raises s.pc i f ∧ t = s.raise f := by
  rw [execWith, transact_eq_next, execRule_eq_ok_iff]
  simp only [execRule_eq_error_iff]

/-- Everything a step of a running state can do. -/
theorem stepWith_running_cases (hrun : s.run = .running) (h : stepWith P s = .next t) :
    (∃ f, fetchWith P.opc s = .error f ∧ t = s.raise f) ∨
      ∃ i, fetchWith P.opc s = .ok i ∧ (Completes P s i t ∨ ∃ f, Raises s.pc i f ∧ t = s.raise f) := by
  obtain ⟨hstopped, -⟩ | ⟨-, hfetch⟩ | ⟨-, i, hfetch, hexec⟩ := stepWith_cases h
  · exact absurd hrun hstopped
  · exact .inl hfetch
  · exact .inr ⟨i, hfetch, execWith_eq_next_iff.1 hexec⟩

/-! ### What a completed instruction leaves -/

/-- A completed instruction leaves the fault record; HLT halts, every other instruction leaves the run state. -/
theorem Completes.run_fault (h : Completes P s i t) :
    t.fault = s.fault ∧ ((i = .hlt ∧ t.run = .halted) ∨ (i ≠ .hlt ∧ t.run = s.run)) := by
  cases h <;> simp

/-- Only CMP writes the flags, with a comparison. -/
theorem Completes.flags (h : Completes P s i t) :
    t.flags = s.flags ∨ ∃ a b x y, i = .cmp a b ∧ t.flags = compareFlags x y := by
  cases h with
  | cmp => exact .inr ⟨_, _, _, _, rfl, rfl⟩
  | _ => exact .inl rfl

/-- Only PRN appends to the output, and it appends its register's byte. -/
theorem Completes.out (h : Completes P s i t) :
    t.out = s.out ∨ ∃ a r, i = .prn a ∧ registerOf a = some r ∧ t.out = s.out ++ [s.regs.get r] := by
  cases h with
  | prn ha => exact .inr ⟨_, _, rfl, ha, rfl⟩
  | _ => exact .inl rfl

/-- Only PUSH and CALL store, one byte at the decremented stack pointer. -/
theorem Completes.mem (h : Completes P s i t) :
    t.mem = s.mem ∨ (∃ a, i = .push a ∨ i = .call a) ∧ t.sp P = (s.decSp P).sp P ∧
      ∃ v, t.mem = s.mem.write ((s.decSp P).sp P).toNat v := by
  cases h with
  | push => exact .inr ⟨⟨_, .inl rfl⟩, rfl, _, rfl⟩
  | call => exact .inr ⟨⟨_, .inr rfl⟩, rfl, _, rfl⟩
  | _ => exact .inl rfl

end

end Sys2Proof.Machine
end

section
/-! PROOFS. The frames of the ten instructions, faults included (10_state.md sections 1, 2 and 5; 20_memory.md
section 2). -/

namespace Sys2Proof

/-- The register is one the instruction can write. -/
def Instr.mayWrite (P : Params) (i : Instr) (j : Fin 8) : Prop :=
  match i with
  | .ldi a _ => j.val = a.toNat
  | .prn _ => False
  | .hlt => False
  | .push _ => j = P.spIndex
  | .pop a => j.val = a.toNat ∨ j = P.spIndex
  | .call _ => j = P.spIndex
  | .ret => j = P.spIndex
  | .add a _ => j.val = a.toNat
  | .mul _ _ => j = 0
  | .cmp _ _ => False

end Sys2Proof

namespace Sys2Proof.Machine

/-- A register other than the one an operand byte selects keeps its value under a write to it. -/
theorem State.setReg_get_of_ne {a : Byte} {r j : Fin 8} (s : State) (v : Byte) (ha : registerOf a = some r)
    (hj : j.val ≠ a.toNat) : (s.setReg r v).regs.get j = s.regs.get j := by
  have hne : j ≠ r := fun e => hj (e ▸ (registerOf_eq_some ha).symm)
  rw [State.setReg_regs, RegFile.get_set, if_neg hne]

section
variable {P : Params} {i : Instr} {s t : State}

/-- A completed instruction leaves every register it cannot write. -/
theorem Completes.get_of_not_mayWrite (h : Completes P s i t) {j : Fin 8} (hj : ¬ i.mayWrite P j) :
    t.regs.get j = s.regs.get j := by
  cases h with
  | ldi ha => exact s.setReg_get_of_ne _ ha hj
  | prn => rfl
  | hlt => rfl
  | push => exact s.decSp_get_of_ne hj
  | pop ha =>
    obtain ⟨hja, hsp⟩ := not_or.1 hj
    exact (State.incSp_get_of_ne _ hsp).trans (s.setReg_get_of_ne _ ha hja)
  | call => exact s.decSp_get_of_ne hj
  | ret => exact s.incSp_get_of_ne hj
  | add ha => exact s.setReg_get_of_ne _ ha hj
  | mul => exact (RegFile.get_set _ _ _ _).trans (if_neg hj)
  | cmp => rfl

theorem execWith_get_of_not_mayWrite (h : execWith P i s = .next t) {j : Fin 8} (hj : ¬ i.mayWrite P j) :
    t.regs.get j = s.regs.get j := by
  obtain hc | ⟨f, -, rfl⟩ := execWith_eq_next_iff.1 h
  · exact hc.get_of_not_mayWrite hj
  · rfl

/-- An instruction that can write no register leaves the register file. -/
theorem execWith_regs_of_not_mayWrite (h : execWith P i s = .next t) (hi : ∀ j, ¬ i.mayWrite P j) :
    t.regs = s.regs :=
  RegFile.eq_of_get fun j => execWith_get_of_not_mayWrite h (hi j)

/-- The flags after an instruction, faults included: only a completed CMP writes them. -/
theorem execWith_flags (h : execWith P i s = .next t) :
    t.flags = s.flags ∨ ∃ a b x y, i = .cmp a b ∧ t.flags = compareFlags x y := by
  obtain hc | ⟨f, -, rfl⟩ := execWith_eq_next_iff.1 h
  · exact hc.flags
  · exact .inl rfl

/-- The output after an instruction, faults included: only a completed PRN appends to it. -/
theorem execWith_out (h : execWith P i s = .next t) :
    t.out = s.out ∨ ∃ a r, i = .prn a ∧ registerOf a = some r ∧ t.out = s.out ++ [s.regs.get r] := by
  obtain hc | ⟨f, -, rfl⟩ := execWith_eq_next_iff.1 h
  · exact hc.out
  · exact .inl rfl

/-- The memory after an instruction, faults included: only a completed PUSH or CALL stores. -/
theorem execWith_mem (h : execWith P i s = .next t) :
    t.mem = s.mem ∨ (∃ a, i = .push a ∨ i = .call a) ∧ t.sp P = (s.decSp P).sp P ∧
      ∃ v, t.mem = s.mem.write ((s.decSp P).sp P).toNat v := by
  obtain hc | ⟨f, -, rfl⟩ := execWith_eq_next_iff.1 h
  · exact hc.mem
  · exact .inl rfl

theorem execWith_flags_of_ne_cmp (h : execWith P i s = .next t) (hi : ∀ a b, i ≠ .cmp a b) : t.flags = s.flags := by
  obtain hkept | ⟨a, b, -, -, hcmp, -⟩ := execWith_flags h
  · exact hkept
  · exact absurd hcmp (hi a b)

theorem execWith_out_of_ne_prn (h : execWith P i s = .next t) (hi : ∀ a, i ≠ .prn a) : t.out = s.out := by
  obtain hkept | ⟨a, -, hprn, -⟩ := execWith_out h
  · exact hkept
  · exact absurd hprn (hi a)

theorem execWith_read_of_ne_push_call (h : execWith P i s = .next t) (hpush : ∀ a, i ≠ .push a)
    (hcall : ∀ a, i ≠ .call a) (x : Nat) : t.mem.read x = s.mem.read x := by
  obtain hkept | ⟨⟨a, hi | hi⟩, -⟩ := execWith_mem h
  · rw [hkept]
  · exact absurd hi (hpush a)
  · exact absurd hi (hcall a)

/-- Whatever the instruction, every byte but the one below the stack pointer reads as before. -/
theorem execWith_read_ne (h : execWith P i s = .next t) {x : Nat} (hx : x ≠ ((s.decSp P).sp P).toNat) :
    t.mem.read x = s.mem.read x := by
  obtain hkept | ⟨-, -, v, hstored⟩ := execWith_mem h
  · rw [hkept]
  · rw [hstored, Memory.read_write_ne _ v hx]

end

/-- Settles O26: none of the six stores, and what each can write is one register, the flags or the output. -/
theorem frameOfInstructionsThatStoreNothing : Obligations.FrameOfInstructionsThatStoreNothing := by
  unfold Obligations.FrameOfInstructionsThatStoreNothing
  intro i s t h
  rw [exec_eq_execWith] at h
  have hregs := fun j => execWith_get_of_not_mayWrite (j := j) h
  have hflags := execWith_flags_of_ne_cmp h
  have hout := execWith_out_of_ne_prn h
  have hmem := execWith_read_of_ne_push_call h
  refine ⟨?ldi, ?prn, ?add, ?mul, ?cmp, ?hlt⟩
  case ldi =>
    rintro a v rfl
    exact ⟨hregs, hflags nofun, hout nofun, hmem nofun nofun⟩
  case prn =>
    rintro a rfl
    exact ⟨execWith_regs_of_not_mayWrite h fun _ => id, hflags nofun, hmem nofun nofun⟩
  case add =>
    rintro a b rfl
    exact ⟨hregs, hflags nofun, hout nofun, hmem nofun nofun⟩
  case mul =>
    rintro a b rfl
    exact ⟨hregs, hflags nofun, hout nofun, hmem nofun nofun⟩
  case cmp =>
    rintro a b rfl
    exact ⟨execWith_regs_of_not_mayWrite h fun _ => id, hout nofun, hmem nofun nofun⟩
  case hlt =>
    rintro rfl
    exact ⟨execWith_regs_of_not_mayWrite h fun _ => id, hflags nofun, hout nofun, hmem nofun nofun⟩

/-- Settles O27: none of the four writes the flags or the output, and the only store is below the stack pointer. -/
theorem frameOfStackInstructions : Obligations.FrameOfStackInstructions := by
  unfold Obligations.FrameOfStackInstructions
  intro i s t h
  rw [exec_eq_execWith] at h
  have hregs := fun j => execWith_get_of_not_mayWrite (j := j) h
  have hflags := execWith_flags_of_ne_cmp h
  have hout := execWith_out_of_ne_prn h
  have hmem := execWith_read_of_ne_push_call h
  refine ⟨?stores, ?pop, ?ret⟩
  case stores =>
    rintro a (rfl | rfl)
    all_goals exact ⟨hregs, hflags nofun, hout nofun, fun x hx => execWith_read_ne h (State.stackTop_toNat _ _ ▸ hx)⟩
  case pop =>
    rintro a rfl
    exact ⟨fun j hja hsp => hregs j (not_or.2 ⟨hja, hsp⟩), hflags nofun, hout nofun, hmem nofun nofun⟩
  case ret =>
    rintro rfl
    exact ⟨hregs, hflags nofun, hout nofun, hmem nofun nofun⟩

end Sys2Proof.Machine
end

section
/-! PROOFS. The rules of the whole machine: every step, from every state, under every choice of the parameters. -/

namespace Sys2Proof.Machine

section
variable {P : Params} {i : Instr} {s t : State} {f : FaultRecord}

/-- A step of a state that is not running returns it (40_fetch_decode_execute.md R70). -/
theorem stepWith_of_not_running (P : Params) (hrun : s.run ≠ .running) : stepWith P s = .next s := by
  unfold stepWith stepUsing
  cases hs : s.run with
  | running => exact absurd hs hrun
  | halted => rfl
  | faulted => rfl

theorem stepWith_next (P : Params) (s : State) : ∃ t, stepWith P s = .next t := by
  by_cases hrun : s.run = .running
  · cases hfetch : fetchWith P.opc s with
    | error f => exact ⟨_, stepWith_of_fetch_error hrun hfetch⟩
    | ok i =>
      obtain ⟨t, ht⟩ := execWith_next P i s
      exact ⟨t, (stepWith_of_fetch hrun hfetch).trans ht⟩
  · exact ⟨s, stepWith_of_not_running P hrun⟩

/-- A step changes nothing but `RUN` and `FAULT`, or is the execution of the instruction fetched. -/
theorem stepWith_exec_or_frame (h : stepWith P s = .next t) :
    (∃ i, fetchWith P.opc s = .ok i ∧ execWith P i s = .next t) ∨
      (t.regs = s.regs ∧ t.flags = s.flags ∧ t.pc = s.pc ∧ t.mem = s.mem ∧ t.out = s.out) := by
  obtain ⟨-, rfl⟩ | ⟨-, f, -, rfl⟩ | ⟨-, hexec⟩ := stepWith_cases h
  · exact .inr ⟨rfl, rfl, rfl, rfl, rfl⟩
  · exact .inr ⟨rfl, rfl, rfl, rfl, rfl⟩
  · exact .inl hexec

/-- An operand byte that selects a register is a valid one. -/
theorem validRegister_eq_isSome (a : Byte) : validRegister a = (registerOf a).isSome := by
  unfold validRegister registerOf
  split <;> simp [*]

/-- What completes names only valid registers, and is no CALL at 254 or above. -/
theorem Completes.wf (h : Completes P s i t) : i.wf = true ∧ ∀ a, i = .call a → s.pc.toNat < 254 := by
  cases h <;> simp [Instr.wf, validRegister_eq_isSome, *]

/-- What raises names an invalid register, or is a CALL at 254 or above. -/
theorem Raises.not_wf {pc : Addr} (h : Raises pc i f) : i.wf = false ∨ ∃ a, i = .call a ∧ 254 ≤ pc.toNat := by
  cases h with
  | callReturn hpc => exact .inr ⟨_, rfl, hpc⟩
  | _ => simp [Instr.wf, validRegister_eq_isSome, *]

end

/-- The host's run takes its first step first. -/
theorem core_run_succ_of_step {s t : State} (h : step s = .next t) (n : Nat) : core.run (n + 1) s = core.run n t := by
  have hstep : core.step s = .next t := h
  simp only [Host.Core.run, hstep]

/-- Settles O10: a fetch answers an instruction or a fault, and every instruction answers a next state. -/
theorem everyStepAnswersNext : Obligations.EveryStepAnswersNext := by
  unfold Obligations.EveryStepAnswersNext
  exact stepWith_next

/-- Settles O7: one step returns the state, so `n` steps do, by induction on `n`. -/
theorem terminalStatesNeverChange : Obligations.TerminalStatesNeverChange := by
  unfold Obligations.TerminalStatesNeverChange
  refine fun s hrun => ⟨fun P => stepWith_of_not_running P hrun, fun n => ?_⟩
  have hstep : step s = .next s := (step_eq_stepWith s).trans (stepWith_of_not_running _ hrun)
  induction n with
  | zero => rfl
  | succ n ih => exact (core_run_succ_of_step hstep n).trans ih

/-- Settles O11: a raise, at fetch or at execute, is the fault entry alone; an instruction that completes leaves the
fault record, and `RUN` too unless it is HLT. -/
theorem stepEndsInOneOfThreeWays : Obligations.StepEndsInOneOfThreeWays := by
  unfold Obligations.StepEndsInOneOfThreeWays
  intro P s t hrun hnone hstep
  obtain ⟨f, -, rfl⟩ | ⟨i, hfetch, hc | ⟨f, -, rfl⟩⟩ := stepWith_running_cases hrun hstep
  · exact .inr (.inr ⟨rfl, f, rfl, rfl, rfl, rfl, rfl, rfl⟩)
  · obtain ⟨hfault, ⟨rfl, hhalted⟩ | ⟨hne, hkept⟩⟩ := hc.run_fault
    · exact .inr (.inl ⟨hhalted, hfault.trans hnone, hfetch⟩)
    · exact .inl ⟨hkept.trans hrun, hfault.trans hnone, i, hfetch, hne⟩
  · exact .inr (.inr ⟨rfl, f, rfl, rfl, rfl, rfl, rfl, rfl⟩)

/-- Settles O12: the fetched instruction completes exactly when it is well formed and, if a CALL, has its return address
in memory. -/
theorem stepIsSafeExactlyWhen : Obligations.StepIsSafeExactlyWhen := by
  unfold Obligations.StepIsSafeExactlyWhen
  intro P s t hrun hstep
  obtain ⟨f, hfetch, rfl⟩ | ⟨i, hfetch, hc | ⟨f, hraise, rfl⟩⟩ := stepWith_running_cases hrun hstep
  · simp [State.safe, hfetch]
  · have hsafe : t.safe = true := by
      obtain ⟨-, ⟨-, h⟩ | ⟨-, h⟩⟩ := hc.run_fault <;> simp [State.safe, h, hrun]
    exact iff_of_true hsafe ⟨i, hfetch, hc.wf⟩
  · refine iff_of_false (by simp [State.safe]) ?_
    rintro ⟨j, hj, hwf, hcall⟩
    cases hfetch.symm.trans hj
    obtain hinvalid | ⟨a, hi, hpc⟩ := hraise.not_wf
    · simp [hinvalid] at hwf
    · exact absurd (hcall a hi) (Nat.not_lt.2 hpc)

/-- Settles O40: a step that is not the execution of an instruction leaves the flags, and so does every one but CMP. -/
theorem onlyCmpChangesFlags : Obligations.OnlyCmpChangesFlags := by
  unfold Obligations.OnlyCmpChangesFlags
  intro P s t hstep hchanged
  obtain ⟨i, hfetch, hexec⟩ | ⟨-, hflags, -⟩ := stepWith_exec_or_frame hstep
  · obtain hkept | ⟨a, b, -, -, rfl, -⟩ := execWith_flags hexec
    · exact absurd hkept hchanged
    · exact ⟨a, b, hfetch⟩
  · exact absurd hflags hchanged

/-- Settles O41: PUSH and CALL store one byte, at the decremented stack pointer, which they leave as the new one. -/
theorem onlyPushAndCallChangeMemory : Obligations.OnlyPushAndCallChangeMemory := by
  unfold Obligations.OnlyPushAndCallChangeMemory
  intro P s t x hstep hchanged
  obtain ⟨i, hfetch, hexec⟩ | ⟨-, -, -, hmem, -⟩ := stepWith_exec_or_frame hstep
  · have hx : x = ((s.decSp P).sp P).toNat := by_contra fun hne => hchanged (execWith_read_ne hexec hne)
    obtain hkept | ⟨⟨a, hi⟩, hsp, -⟩ := execWith_mem hexec
    · exact absurd (by rw [hkept]) hchanged
    · refine ⟨⟨a, ?_⟩, by rw [hx, State.decSp_sp], by rw [hx, hsp]⟩
      obtain rfl | rfl := hi
      · exact .inl hfetch
      · exact .inr hfetch
  · exact absurd (by rw [hmem]) hchanged

/-- Settles O42: a step that is not the execution of an instruction leaves the output, and only PRN appends, one
byte. -/
theorem outputGrowsOnlyByPrn : Obligations.OutputGrowsOnlyByPrn := by
  unfold Obligations.OutputGrowsOnlyByPrn
  intro P s t hstep
  obtain ⟨i, hfetch, hexec⟩ | ⟨-, -, -, -, hout⟩ := stepWith_exec_or_frame hstep
  · obtain hkept | ⟨a, r, rfl, ha, happended⟩ := execWith_out hexec
    · exact .inl hkept
    · have hlt : a.toNat < 8 := registerOf_eq_some ha ▸ r.isLt
      cases (registerOf_of_lt hlt).symm.trans ha
      exact .inr ⟨a, hlt, hfetch, happended⟩
  · exact .inl hout

end Sys2Proof.Machine
end

section
/-! PROOFS. The invariant of every reachable state (10_state.md R26). -/

namespace Sys2Proof.Machine

section
variable {P : Params} {i : Instr} {s t : State} {f : FaultRecord}

theorem State.invariant_iff : s.invariant P = true ↔
    s.mem.wf = true ∧ s.flags.legal = true ∧ s.pc.toNat ≤ 256 ∧ s.faultConsistent P.opc = true := by
  simp [State.invariant, and_assoc]

/-- A comparison is one of the four legal values of the flags. -/
theorem compareFlags_legal (a b : Byte) : (compareFlags a b).legal = true := by
  unfold compareFlags
  split
  · rfl
  · split <;> rfl

/-- Outside `Faulted` the fault record is consistent exactly when there is none. -/
theorem State.faultConsistent_of_ne_faulted {O : OpcodeMap} (hrun : s.run ≠ .faulted) :
    s.faultConsistent O = true ↔ s.fault = none := by
  unfold State.faultConsistent
  cases hs : s.run with
  | faulted => exact absurd hs hrun
  | running => cases s.fault <;> simp
  | halted => cases s.fault <;> simp

/-- The fault entry keeps the invariant when the record is a legal one. -/
theorem State.invariant_raise (hinv : s.invariant P = true) (hf : f.legal P.opc = true) :
    (s.raise f).invariant P = true := by
  rw [State.invariant_iff] at hinv ⊢
  obtain ⟨hmem, hflags, hpc, -⟩ := hinv
  exact ⟨hmem, hflags, hpc, hf⟩

/-- A fetch with `pc` at 256 or below raises a legal record. -/
theorem legal_of_fetchWith_error {O : OpcodeMap} (hpc : s.pc.toNat ≤ 256) (h : fetchWith O s = .error f) :
    f.legal O = true := by
  obtain ⟨hge, rfl⟩ | ⟨-, hunknown, rfl⟩ | ⟨-, rfl⟩ := fetchWith_error h
  · simp only [FaultRecord.legal, decide_eq_true_eq]
    omega
  · simp [FaultRecord.legal, hunknown]
  · rfl

/-- An index that selects no register makes a legal record, for a read and for a write. -/
theorem legal_of_registerOf_none (O : OpcodeMap) {a : Byte} (h : registerOf a = none) :
    (FaultRecord.addressingError .regRead (a.setWidth 9)).legal O = true ∧
      (FaultRecord.addressingError .regWrite (a.setWidth 9)).legal O = true := by
  have hge := registerOf_eq_none h
  have hval : (a.setWidth 9).toNat = a.toNat := BitVec.toNat_setWidth_of_le (by decide)
  have hlt := a.isLt
  simp only [FaultRecord.legal, hval, Bool.and_eq_true, decide_eq_true_eq]
  omega

/-- An instruction that has been fetched raises a legal record: a CALL that was fetched stands at 254 at most. -/
theorem Raises.legal {O : OpcodeMap} {pc : Addr} (h : Raises pc i f) (hcall : ∀ a, i = .call a → pc.toNat < 255) :
    f.legal O = true := by
  cases h with
  | ldi ha => exact (legal_of_registerOf_none O ha).2
  | pop ha => exact (legal_of_registerOf_none O ha).2
  | callReturn hpc =>
    have hlt := hcall _ rfl
    simp only [FaultRecord.legal, BitVec.toNat_ofNat, decide_eq_true_eq]
    omega
  | prn ha => exact (legal_of_registerOf_none O ha).1
  | push ha => exact (legal_of_registerOf_none O ha).1
  | call hpc ha => exact (legal_of_registerOf_none O ha).1
  | addA ha => exact (legal_of_registerOf_none O ha).1
  | addB ha hb => exact (legal_of_registerOf_none O hb).1
  | mulA ha => exact (legal_of_registerOf_none O ha).1
  | mulB ha hb => exact (legal_of_registerOf_none O hb).1
  | cmpA ha => exact (legal_of_registerOf_none O ha).1
  | cmpB ha hb => exact (legal_of_registerOf_none O hb).1

/-- Where a completed instruction continues: after itself, after HLT's own byte or at it, or at a byte's address. -/
theorem Completes.pc (h : Completes P s i t) :
    (t.pc = s.pc + BitVec.ofNat 9 (i.operandBytes.length + 1)) ∨ (i = .hlt ∧ t.pc = s.pc) ∨ t.pc.toNat < 256 := by
  have hbyte : ∀ v : Byte, (v.setWidth 9).toNat < 256 := fun v =>
    (BitVec.toNat_setWidth_of_le (by decide)).trans_lt v.isLt
  cases h with
  | call => exact .inr (.inr (hbyte _))
  | ret => exact .inr (.inr (hbyte _))
  | hlt =>
    obtain hd | hd : P.hltPcDelta = 0 ∨ P.hltPcDelta = 1 := by omega
    · exact .inr (.inl ⟨rfl, by simp [hd]⟩)
    · exact .inl (by simp [hd, Instr.operandBytes])
  | _ => exact .inl rfl

/-- A fetched instruction that completes leaves `pc` at 256 or below. -/
theorem Completes.pc_le (h : Completes P s i t) (hat : s.holdsAtPc (encodeWith P.opc i)) : t.pc.toNat ≤ 256 := by
  obtain ⟨hfits, -⟩ := hat
  rw [encodeWith, List.length_cons] at hfits
  obtain hnext | ⟨-, hkept⟩ | hbyte := h.pc
  · rw [hnext, BitVec.toNat_add, BitVec.toNat_ofNat]
    omega
  · rw [hkept]; omega
  · omega

/-- A completed instruction keeps memory in canonical form. -/
theorem Completes.mem_wf (h : Completes P s i t) (hmem : s.mem.wf = true) : t.mem.wf = true := by
  obtain hkept | ⟨-, -, v, hstored⟩ := h.mem
  · rwa [hkept]
  · rw [hstored]
    exact Memory.wf_write v ((s.decSp P).sp P).isLt hmem

/-- A completed instruction keeps the flags legal. -/
theorem Completes.flags_legal (h : Completes P s i t) (hflags : s.flags.legal = true) : t.flags.legal = true := by
  obtain hkept | ⟨-, -, x, y, -, hcmp⟩ := h.flags
  · rwa [hkept]
  · rw [hcmp]
    exact compareFlags_legal x y

/-- A completed instruction of a running state keeps the invariant. -/
theorem Completes.invariant (h : Completes P s i t) (hrun : s.run = .running)
    (hat : s.holdsAtPc (encodeWith P.opc i)) (hinv : s.invariant P = true) : t.invariant P = true := by
  rw [State.invariant_iff] at hinv ⊢
  obtain ⟨hmem, hflags, -, hcons⟩ := hinv
  have hnone : s.fault = none := (State.faultConsistent_of_ne_faulted (by simp [hrun])).1 hcons
  obtain ⟨hfault, hhalt⟩ := h.run_fault
  have hne : t.run ≠ .faulted := by
    obtain ⟨-, ht⟩ | ⟨-, ht⟩ := hhalt <;> simp [ht, hrun]
  exact ⟨h.mem_wf hmem, h.flags_legal hflags, h.pc_le hat,
    (State.faultConsistent_of_ne_faulted hne).2 (hfault.trans hnone)⟩

end

/-- Settles O38: a step returns the state, completes the instruction whose encoding stands at `pc`, or takes the fault
entry with a legal record. -/
theorem stepKeepsInvariant : Obligations.StepKeepsInvariant := by
  unfold Obligations.StepKeepsInvariant
  intro P h s t hinv hstep
  obtain ⟨-, -, hpc, -⟩ := State.invariant_iff.1 hinv
  by_cases hrun : s.run = .running
  · obtain ⟨f, hfetch, rfl⟩ | ⟨i, hfetch, hexec⟩ := stepWith_running_cases hrun hstep
    · exact State.invariant_raise hinv (legal_of_fetchWith_error hpc hfetch)
    · have hat := holdsAtPc_of_fetchWith h hfetch
      obtain hc | ⟨f, hraise, rfl⟩ := hexec
      · exact hc.invariant hrun hat hinv
      · refine State.invariant_raise hinv (hraise.legal ?_)
        rintro a rfl
        obtain ⟨hfits, -⟩ := hat
        have hlen : (encodeWith P.opc (.call a)).length = 2 := rfl
        omega
  · cases (stepWith_of_not_running P hrun).symm.trans hstep
    exact hinv

end Sys2Proof.Machine
end

section
/-! PROOFS. No instruction reads the flags or the output (10_state.md sections 2 and 5). -/

namespace Sys2Proof.Machine

/-- The state with other flags and another output. -/
def State.withFlagsOut (s : State) (f : Flags) (o : List Byte) : State := { s with flags := f, out := o }

/-- Some copy of `t` is a possible answer from the copy of `s` with these flags and this output: the same bytes are
appended to both outputs, and the flags are equal afterwards or each as before. -/
def AnswersAlike (s t : State) (f : Flags) (o : List Byte) (answers : State → Prop) : Prop :=
  ∃ g w, answers (t.withFlagsOut g (o ++ w)) ∧ t.out = s.out ++ w ∧ (t.flags = g ∨ (t.flags = s.flags ∧ g = f))

section
variable {P : Params} {i : Instr} {s t : State}

/-- What writes neither flags nor output answers alike when its copy is answered. -/
theorem AnswersAlike.of_silent {f : Flags} {o : List Byte} {answers : State → Prop}
    (h : answers (t.withFlagsOut f o)) (hout : t.out = s.out) (hflags : t.flags = s.flags) :
    AnswersAlike s t f o answers :=
  ⟨f, [], by rwa [List.append_nil], by rwa [List.append_nil], .inr ⟨hflags, rfl⟩⟩

/-- The fetch does not read the flags or the output. -/
theorem fetchWith_withFlagsOut (O : OpcodeMap) (s : State) (f : Flags) (o : List Byte) :
    fetchWith O (s.withFlagsOut f o) = fetchWith O s := rfl

/-- A completed instruction completes alike under other flags and another output. -/
theorem Completes.withFlagsOut (h : Completes P s i t) (f : Flags) (o : List Byte) :
    AnswersAlike s t f o (Completes P (s.withFlagsOut f o) i) := by
  cases h with
  | prn ha => exact ⟨f, _, .prn ha, rfl, .inr ⟨rfl, rfl⟩⟩
  | cmp ha hb => exact ⟨_, [], by rw [List.append_nil]; exact .cmp ha hb, (List.append_nil _).symm, .inl rfl⟩
  | ldi ha => exact .of_silent (.ldi ha) rfl rfl
  | hlt => exact .of_silent .hlt rfl rfl
  | push ha => exact .of_silent (.push ha) rfl rfl
  | pop ha => exact .of_silent (.pop ha) rfl rfl
  | call hpc ha => exact .of_silent (.call hpc ha) rfl rfl
  | ret => exact .of_silent .ret rfl rfl
  | add ha hb => exact .of_silent (.add ha hb) rfl rfl
  | mul ha hb => exact .of_silent (.mul ha hb) rfl rfl

/-- A step is answered alike under other flags and another output. -/
theorem stepWith_withFlagsOut (h : stepWith P s = .next t) (f : Flags) (o : List Byte) :
    AnswersAlike s t f o (fun u => stepWith P (s.withFlagsOut f o) = .next u) := by
  by_cases hrun : s.run = .running
  · have hrun' : (s.withFlagsOut f o).run = .running := hrun
    obtain ⟨r, hfetch, rfl⟩ | ⟨i, hfetch, hexec⟩ := stepWith_running_cases hrun h
    · exact .of_silent (stepWith_of_fetch_error hrun' ((fetchWith_withFlagsOut _ s f o).trans hfetch)) rfl rfl
    · have hstep' := stepWith_of_fetch hrun' ((fetchWith_withFlagsOut _ s f o).trans hfetch)
      obtain hc | ⟨r, hraise, rfl⟩ := hexec
      · obtain ⟨g, w, hc', hout, hflags⟩ := hc.withFlagsOut f o
        exact ⟨g, w, hstep'.trans (execWith_of_completes hc'), hout, hflags⟩
      · exact .of_silent (hstep'.trans (execWith_of_raises hraise)) rfl rfl
  · cases (stepWith_of_not_running P hrun).symm.trans h
    exact .of_silent (stepWith_of_not_running P hrun) rfl rfl

end

/-- Settles O43: the step under the other flags and output ends in the same state but for those two. -/
theorem flagsAndOutputAreNeverRead : Obligations.FlagsAndOutputAreNeverRead := by
  unfold Obligations.FlagsAndOutputAreNeverRead
  intro P s f o
  obtain ⟨t, hstep⟩ := stepWith_next P s
  obtain ⟨g, w, hstep', hout, hflags⟩ := stepWith_withFlagsOut hstep f o
  exact ⟨t, t.withFlagsOut g (o ++ w), w, hstep, hstep', rfl, rfl, rfl, rfl, rfl, hout, rfl, hflags⟩

end Sys2Proof.Machine
end

section
/-! PROOFS. CMP, HLT, the storage law of the registers, and the order of faults (42_alu.md; 45_halt.md; 60_exceptions.md
section 3). -/

namespace Sys2Proof.Machine

section
variable {i : Instr} {s t : State} {f : FaultRecord}

theorem exec_of_completes (h : Completes Config.params s i t) : exec i s = .next t :=
  exec_of_execRule_ok (execRule_of_completes h)

theorem exec_of_raises (h : Raises s.pc i f) : exec i s = .next (s.raise f) :=
  exec_of_execRule_error (execRule_of_raises h)

/-- A CALL at 254 raises on its return address, 256, whatever its operand. -/
theorem exec_call_of_pc_eq_254 (a : Byte) (hpc : s.pc.toNat = 254) :
    exec (.call a) s = .next (s.raise (.addressingError .memWrite 256)) := by
  have hraise : Raises s.pc (.call a) _ := .callReturn hpc.ge
  rw [hpc] at hraise
  exact exec_of_raises hraise

/-- Different valid operand bytes select different registers. -/
theorem registerOf_injective {a b : Byte} {r : Fin 8} (ha : registerOf a = some r) (hb : registerOf b = some r) :
    a = b :=
  BitVec.eq_of_toNat_eq ((registerOf_eq_some ha).trans (registerOf_eq_some hb).symm)

/-- A checked write that succeeds is the write of the register the byte selects. -/
theorem State.writeReg_ok {a v : Byte} (h : s.writeReg a v = .ok t) :
    ∃ r, registerOf a = some r ∧ t = s.setReg r v := by
  cases ha : registerOf a with
  | none => cases (State.writeReg_of_none ha).symm.trans h
  | some r =>
    cases (State.writeReg_of_some ha).symm.trans h
    exact ⟨r, rfl, rfl⟩

end

/-- Settles O18: two valid indices make CMP one comparison of the old values and the advance of `pc`. -/
theorem cmpSetsExactlyOneFlag : Obligations.CmpSetsExactlyOneFlag := by
  unfold Obligations.CmpSetsExactlyOneFlag
  intro a b s ha hb
  exact ⟨_, exec_of_completes (.cmp (registerOf_of_lt ha) (registerOf_of_lt hb)), compareFlags_less _ _,
    compareFlags_greater _ _, (compareFlags_equal _ _).trans BitVec.toNat_inj, rfl, rfl, rfl, rfl, rfl, rfl⟩

/-- Settles O25: HLT has no operand and always completes; the default delta is 0. -/
theorem hltHalts : Obligations.HltHalts := by
  unfold Obligations.HltHalts
  refine ⟨fun P s => ⟨_, execWith_of_completes .hlt, rfl, rfl, rfl, rfl, rfl, rfl, rfl⟩, fun s => ?_⟩
  exact ⟨_, exec_of_completes .hlt, rfl, BitVec.add_zero s.pc, rfl, rfl, rfl, rfl, rfl⟩

/-- Settles O30: the write goes to the register the index selects, and no other byte selects that register. -/
theorem registerWriteIsReadBack : Obligations.RegisterWriteIsReadBack := by
  unfold Obligations.RegisterWriteIsReadBack
  intro s t a v h
  obtain ⟨r, ha, rfl⟩ := State.writeReg_ok h
  refine ⟨by simp [State.readReg_of_some ha], fun b hne => ?_⟩
  cases hb : registerOf b with
  | none => rw [State.readReg_of_none hb, State.readReg_of_none hb]
  | some q =>
    have hqr : q ≠ r := fun e => hne (registerOf_injective (e ▸ hb) ha)
    rw [State.readReg_of_some hb, State.readReg_of_some hb, State.setReg_regs, RegFile.get_set, if_neg hqr]

/-- Settles O23: CALL checks the return address before its register. -/
theorem callFaults : Obligations.CallFaults := by
  unfold Obligations.CallFaults
  exact fun a s => ⟨exec_call_of_pc_eq_254 a, fun hpc ha => exec_of_raises (.call hpc (registerOf_of_ge ha))⟩

/-- Settles O13: the operand fetch comes before the instruction, operand A before operand B, and CALL's return address
before its register. -/
theorem firstFaultIsReported : Obligations.FirstFaultIsReported := by
  unfold Obligations.FirstFaultIsReported
  refine ⟨fun s a hrun hpc _ hop _ => ?operandFetch, fun s a b ha => ?invalidA, fun s a b ha hb => ?invalidB,
    fun s a hpc _ => exec_call_of_pc_eq_254 a hpc⟩
  case operandFetch =>
    rw [← hpc] at hop
    obtain ⟨m, hm, hcount⟩ : ∃ m, s.mem.read s.pc.toNat = Config.params.opc.byte m ∧
        operandCount (Config.params.opc.byte m) = 2 := by
      obtain hop | hop | hop | hop := hop
      exacts [⟨.cmp, hop, by decide⟩, ⟨.add, hop, by decide⟩, ⟨.mul, hop, by decide⟩, ⟨.ldi, hop, by decide⟩]
    exact step_of_operands_past_top m hrun hm (by omega) (by omega)
  case invalidA =>
    have hnone := registerOf_of_ge ha
    exact ⟨exec_of_raises (.cmpA hnone), exec_of_raises (.addA hnone), exec_of_raises (.mulA hnone)⟩
  case invalidB =>
    have hsome := registerOf_of_lt ha
    have hnone := registerOf_of_ge hb
    exact ⟨exec_of_raises (.cmpB hsome hnone), exec_of_raises (.addB hsome hnone), exec_of_raises (.mulB hsome hnone)⟩

end Sys2Proof.Machine
end

section
/-! PROOFS. CALL, and the laws of the stack and of the subroutine instructions (43_stack.md; 44_subroutine.md). -/

namespace Sys2Proof.Machine

section
variable {P : Params} {a : Byte} {s t u : State} {r : Fin 8}

/-- A completed CALL has moved the stack pointer down. -/
theorem Completes.call_sp (h : Completes P s (.call a) t) : t.sp P = (s.decSp P).sp P := by
  cases h
  rfl

/-- A completed CALL has pushed the return address, which fits a byte. -/
theorem Completes.call_read_sp (hmem : s.mem.wf = true) (h : Completes P s (.call a) t) :
    (t.mem.read (t.sp P).toNat).toNat = s.pc.toNat + 2 := by
  rw [h.call_sp]
  cases h with
  | call hpc =>
    have hread : _ = BitVec.ofNat 8 (s.pc.toNat + 2) :=
      Memory.read_write_self (a := ((s.decSp P).sp P).toNat) (BitVec.ofNat 8 (s.pc.toNat + 2)) hmem
    refine (congrArg BitVec.toNat hread).trans ?_
    rw [BitVec.toNat_ofNat]
    omega

/-- A completed CALL leaves every byte but the one at the new stack pointer. -/
theorem Completes.call_read_ne (h : Completes P s (.call a) t) {x : Nat} (hx : x ≠ (t.sp P).toNat) :
    t.mem.read x = s.mem.read x :=
  execWith_read_ne (execWith_of_completes h) (h.call_sp ▸ hx)

/-- A completed CALL continues at its register's byte, read after the push. -/
theorem Completes.call_pc (h : Completes P s (.call a) t) (ha : registerOf a = some r) :
    t.pc.toNat = (t.regs.get r).toNat := by
  cases h with
  | call _ ha' =>
    cases ha'.symm.trans ha
    exact BitVec.toNat_setWidth_of_le (by decide)

/-- What a completed CALL leaves outside memory: everything but the stack pointer and `pc`. -/
theorem Completes.call_frame (h : Completes P s (.call a) t) :
    (∀ j : Fin 8, j ≠ P.spIndex → t.regs.get j = s.regs.get j) ∧ t.flags = s.flags ∧ t.out = s.out ∧
      t.run = s.run ∧ t.fault = s.fault := by
  refine ⟨fun j => h.get_of_not_mayWrite, ?_⟩
  cases h
  exact ⟨rfl, rfl, rfl, rfl⟩

/-- The stack pointer that a decrement left at the pushed byte is back where it was after an increment. -/
theorem State.incSp_sp_of_decSp (hsp : u.sp P = (s.decSp P).sp P) : (u.incSp P).sp P = s.sp P := by
  rw [State.incSp_sp, hsp, State.decSp_sp]
  exact BitVec.sub_add_cancel _ _

end

/-- Settles O22: with a valid operand below 254 CALL completes. -/
theorem callPushesReturnAddress : Obligations.CallPushesReturnAddress := by
  unfold Obligations.CallPushesReturnAddress
  intro a s hmem hpc hlt
  have ha := registerOf_of_lt hlt
  obtain ⟨t, hc⟩ : ∃ t, Completes Config.params s (.call a) t := ⟨_, .call hpc ha⟩
  have htop : ((s.decSp Config.params).stackTop Config.params).toNat = (t.sp Config.params).toNat := by
    rw [State.stackTop_toNat, hc.call_sp]
  exact ⟨t, exec_of_completes hc, by rw [hc.call_sp, State.decSp_sp_toNat], hc.call_read_sp hmem,
    fun x hx => hc.call_read_ne (htop ▸ hx), htop, hc.call_pc ha, hc.call_frame⟩

/-- Settles O21: the operand is the register the decrement or the increment writes, so PUSH and CALL read the
decremented pointer and POP increments the byte it has loaded. -/
theorem stackPointerAsOperand : Obligations.StackPointerAsOperand := by
  unfold Obligations.StackPointerAsOperand
  intro P a s hsp hmem
  have ha : registerOf a = some P.spIndex := by
    rw [registerOf_of_lt (hsp ▸ P.spIndex.isLt)]
    exact congrArg some (Fin.ext hsp)
  refine ⟨?push, ?pop, fun hpc => ?call⟩
  case push =>
    obtain ⟨t, hc⟩ : ∃ t, Completes P s (.push a) t := ⟨_, .push ha⟩
    have hrule : pushRule P a s = .ok t := execRule_of_completes hc
    exact ⟨t, execWith_of_completes hc, (pushRule_sp hrule).trans (State.decSp_sp s P),
      (pushRule_read_sp hmem ha hrule).trans (State.decSp_sp s P), fun x hx => pushRule_read_ne hrule hx,
      pushRule_frame hrule⟩
  case pop =>
    refine ⟨_, execWith_of_completes (.pop ha), ?_, rfl, fun j hj => ?_, rfl, rfl, rfl, rfl, rfl⟩
    · exact (State.incSp_sp _ P).trans (congrArg (· + 1) (State.setReg_spIndex_sp P s _))
    · exact (Completes.pop (P := P) (s := s) ha).get_of_not_mayWrite (not_or.2 ⟨hsp ▸ fun e => hj (Fin.ext e), hj⟩)
  case call =>
    obtain ⟨t, hc⟩ : ∃ t, Completes P s (.call a) t := ⟨_, .call hpc ha⟩
    have hnew : t.sp P = s.sp P - 1 := hc.call_sp.trans (State.decSp_sp s P)
    exact ⟨t, execWith_of_completes hc, hnew, (hc.call_pc ha).trans (congrArg BitVec.toNat hnew),
      hc.call_read_sp hmem, fun x hx => hc.call_read_ne hx, hc.call_frame⟩

/-- Settles O34: the byte on top is the register's, and the POP's increment undoes the PUSH's decrement. -/
theorem pushThenPopRestores : Obligations.PushThenPopRestores := by
  unfold Obligations.PushThenPopRestores
  intro P a hlt s hmem hne
  have ha := registerOf_of_lt hlt
  have hr : (⟨a.toNat, hlt⟩ : Fin 8) ≠ P.spIndex := fun e => hne (congrArg Fin.val e)
  obtain ⟨t, hpush⟩ : ∃ t, Completes P s (.push a) t := ⟨_, .push ha⟩
  have hpushed : pushRule P a s = .ok t := execRule_of_completes hpush
  refine ⟨t, execWith_of_completes hpush, fun u hsp htop => ?_⟩
  obtain ⟨w, hpop⟩ : ∃ w, Completes P u (.pop a) w := ⟨_, .pop ha⟩
  have hpopped : popRule P a u = .ok w := execRule_of_completes hpop
  obtain ⟨-, -, -, hwmem, -⟩ := popRule_frame hpopped
  refine ⟨w, execWith_of_completes hpop, ?register, ?stackPointer, hwmem⟩
  case register =>
    rw [popRule_get ha hr hpopped, hsp, htop, pushRule_read_sp hmem ha hpushed, State.decSp_get_of_ne s hr]
  case stackPointer =>
    rw [popRule_sp ha hr hpopped, State.incSp_sp_of_decSp (hsp.trans (pushRule_sp hpushed))]

/-- Settles O35: the byte on top is the return address, and the RET's increment undoes the CALL's decrement. -/
theorem callThenRetReturns : Obligations.CallThenRetReturns := by
  unfold Obligations.CallThenRetReturns
  intro P a s hlt hmem hpc
  obtain ⟨t, hcall⟩ : ∃ t, Completes P s (.call a) t := ⟨_, .call hpc (registerOf_of_lt hlt)⟩
  refine ⟨t, execWith_of_completes hcall, fun u hsp htop => ?_⟩
  obtain ⟨w, hret⟩ : ∃ w, Completes P u .ret w := ⟨_, .ret⟩
  have hreturned : retRule P u = .ok w := execRule_of_completes hret
  refine ⟨w, execWith_of_completes hret, ?_, ?_⟩
  · rw [retRule_pc_toNat hreturned, hsp, htop, hcall.call_read_sp hmem]
  · rw [retRule_sp hreturned, State.incSp_sp_of_decSp (hsp.trans hcall.call_sp)]

/-- Settles O36: RET takes the byte PUSH has stored, and its increment undoes PUSH's decrement. -/
theorem pushThenRetJumps : Obligations.PushThenRetJumps := by
  unfold Obligations.PushThenRetJumps
  intro P a hlt s hmem hne
  have ha := registerOf_of_lt hlt
  have hr : (⟨a.toNat, hlt⟩ : Fin 8) ≠ P.spIndex := fun e => hne (congrArg Fin.val e)
  obtain ⟨t, hpush⟩ : ∃ t, Completes P s (.push a) t := ⟨_, .push ha⟩
  obtain ⟨w, hret⟩ : ∃ w, Completes P t .ret w := ⟨_, .ret⟩
  have hpushed : pushRule P a s = .ok t := execRule_of_completes hpush
  have hreturned : retRule P t = .ok w := execRule_of_completes hret
  refine ⟨t, w, execWith_of_completes hpush, execWith_of_completes hret, ?pc, RegFile.eq_of_get fun j => ?register⟩
  case pc => rw [retRule_pc_toNat hreturned, pushRule_read_sp hmem ha hpushed, State.decSp_get_of_ne s hr]
  case register =>
    by_cases hj : j = P.spIndex
    · subst hj
      exact (retRule_sp hreturned).trans (State.incSp_sp_of_decSp (pushRule_sp hpushed))
    · exact (hret.get_of_not_mayWrite hj).trans (hpush.get_of_not_mayWrite hj)

end Sys2Proof.Machine
end

section
/-! PROOFS. A stored byte is fetched by the next step (20_memory.md section 4). -/

namespace Sys2Proof.Machine

/-- The byte a PUSH or a CALL stores when it completes at `s`. -/
def StoresByte (P : Params) (s : State) (i : Instr) (b : Byte) : Prop :=
  (∃ (a : Byte) (h : a.toNat < 8), i = .push a ∧ b = (s.decSp P).regs.get ⟨a.toNat, h⟩) ∨
    ∃ a : Byte, i = .call a ∧ a.toNat < 8 ∧ s.pc.toNat < 254 ∧ b.toNat = s.pc.toNat + 2

section
variable {P : Params} {i j : Instr} {s t : State} {b : Byte}

/-- After a PUSH or a CALL of a running state the engine still runs, and the byte is on top of the stack. -/
theorem StoresByte.read_sp (h : StoresByte P s i b) (hmem : s.mem.wf = true) (hexec : execWith P i s = .next t) :
    t.run = s.run ∧ t.mem.read (t.sp P).toNat = b := by
  obtain ⟨a, hlt, rfl, rfl⟩ | ⟨a, rfl, hlt, hpc, hb⟩ := h
  · have ha := registerOf_of_lt hlt
    obtain ⟨u, hc⟩ : ∃ u, Completes P s (.push a) u := ⟨_, .push ha⟩
    cases (execWith_of_completes hc).symm.trans hexec
    have hrule : pushRule P a s = .ok t := execRule_of_completes hc
    obtain ⟨-, -, -, -, hrun, -⟩ := pushRule_frame hrule
    exact ⟨hrun, pushRule_read_sp hmem ha hrule⟩
  · obtain ⟨u, hc⟩ : ∃ u, Completes P s (.call a) u := ⟨_, .call hpc (registerOf_of_lt hlt)⟩
    cases (execWith_of_completes hc).symm.trans hexec
    obtain ⟨-, -, -, hrun, -⟩ := hc.call_frame
    exact ⟨hrun, BitVec.eq_of_toNat_eq ((hc.call_read_sp hmem).trans hb.symm)⟩

/-- The byte a cell holds is the byte of the fetched encoding that lies there. -/
theorem getElem_encodeWith_of_fetchWith {O : OpcodeMap} (h : O.wf = true) (hf : fetchWith O t = .ok j) {k x : Nat}
    (hk : k < (encodeWith O j).length) (hx : t.pc.toNat + k = x) : (encodeWith O j)[k] = t.mem.read x := by
  obtain ⟨-, hbytes⟩ := holdsAtPc_of_fetchWith h hf
  rw [← hx, hbytes k hk]

end

/-- Settles O37: the byte on top of the stack after the store is what memory holds there, and the fetch reads memory. -/
theorem storedByteIsFetchedNext : Obligations.StoredByteIsFetchedNext := by
  unfold Obligations.StoredByteIsFetchedNext
  intro P i b s t hwf hmem hrunning hexec hstores
  obtain ⟨hkept, hread⟩ := StoresByte.read_sp hstores hmem hexec
  have hrun : t.run = .running := hkept.trans hrunning
  refine ⟨fun j hf k hk hx => (getElem_encodeWith_of_fetchWith hwf hf hk hx).trans hread, fun hpc => ?_⟩
  have hlt : t.pc.toNat < 256 := hpc ▸ (t.sp P).isLt
  have hat : t.mem.read t.pc.toNat = b := hpc ▸ hread
  refine ⟨fun m hm => ⟨fun hfits => ?fetched, fun hpast => ?truncated⟩, fun hunknown => ?unknown⟩
  case fetched =>
    have hf := fetchWith_of_opcode hwf (hm.trans hat.symm) (hm ▸ hfits)
    exact ⟨_, hf, Mnemonic.assemble_mnemonic m _ _, stepWith_of_fetch hrun hf⟩
  case truncated =>
    exact stepWith_of_fetch_error hrun
      (fetchWith_of_operands_past_top hwf (hm.trans hat.symm) hlt (hm ▸ hpast))
  case unknown =>
    have haddr : t.pc.setWidth 8 = t.sp P := BitVec.eq_of_toNat_eq (by rw [BitVec.toNat_setWidth]; omega)
    rw [← hat] at hunknown
    have hf := fetchWith_of_unknown_opcode hlt hunknown
    rw [hat, haddr] at hf
    exact stepWith_of_fetch_error hrun hf

end Sys2Proof.Machine
end

section
/-! PROOFS. What a cell holds after stores and loads, and the canonical form as one list per memory (20_memory.md
section 1; log entry 20). -/

namespace Sys2Proof.Machine

/-- Placing bytes leaves every address outside them. -/
theorem Memory.read_place_outside {bytes : List Byte} {m : Memory} {k a : Nat} (h : a < k ∨ k + bytes.length ≤ a) :
    Memory.read (Memory.place m k bytes) a = Memory.read m a := by
  induction bytes generalizing m k with
  | nil => rfl
  | cons b rest ih =>
    rw [List.length_cons] at h
    exact (ih (by omega)).trans (Memory.read_write_ne m b (by omega))

/-- Bytes placed inside memory are read back. -/
theorem Memory.read_place_inside {bytes : List Byte} {m : Memory} {k : Nat} (hm : m.wf = true)
    (hk : k + bytes.length ≤ 256) {j : Nat} (hj : j < bytes.length) :
    Memory.read (Memory.place m k bytes) (k + j) = bytes[j] := by
  induction bytes generalizing m k j with
  | nil => exact absurd hj (Nat.not_lt_zero j)
  | cons b rest ih =>
    rw [List.length_cons] at hk hj
    cases j with
    | zero =>
      have houtside : k < k + 1 ∨ k + 1 + rest.length ≤ k := .inl (Nat.lt_succ_self k)
      exact (Memory.read_place_outside houtside).trans (Memory.read_write_self b hm)
    | succ j =>
      have hrest := ih (Memory.wf_write b (by omega : k < 256) hm) (by omega : k + 1 + rest.length ≤ 256)
        (Nat.lt_of_succ_lt_succ hj)
      rwa [Nat.add_right_comm] at hrest

/-- The first cell of a canonical list is not below where another list that reads the same begins. -/
theorem Memory.lower_bound_le_head {lo lo' k : Nat} {v : Byte} {m n : Memory}
    (hm : Memory.wfFrom lo ((k, v) :: m) = true) (hn : Memory.wfFrom lo' n = true)
    (h : ∀ a < 256, Memory.read ((k, v) :: m) a = Memory.read n a) : lo' ≤ k := by
  obtain ⟨-, hk, hv, -⟩ := Memory.wfFrom_cons.1 hm
  by_contra hlt
  refine hv ?_
  rw [← Memory.read_of_lt hn (Nat.not_le.1 hlt), ← h k hk, Memory.read_cons, if_pos rfl]

/-- Canonical lists that read the same are the same, above any lower bounds. -/
theorem Memory.eq_of_read_eq {lo lo' : Nat} {m n : Memory} (hm : Memory.wfFrom lo m = true)
    (hn : Memory.wfFrom lo' n = true) (h : ∀ a < 256, Memory.read m a = Memory.read n a) : m = n := by
  induction m generalizing lo lo' n with
  | nil =>
    cases n with
    | nil => rfl
    | cons d rest' =>
      obtain ⟨k', v'⟩ := d
      have hle : k' + 1 ≤ k' := Memory.lower_bound_le_head (n := []) hn rfl fun a ha => (h a ha).symm
      omega
  | cons c rest ih =>
    obtain ⟨k, v⟩ := c
    obtain ⟨-, hk, hv, hrest⟩ := Memory.wfFrom_cons.1 hm
    cases n with
    | nil =>
      have hle : k + 1 ≤ k := Memory.lower_bound_le_head (n := []) hm rfl h
      omega
    | cons d rest' =>
      obtain ⟨k', v'⟩ := d
      obtain ⟨-, -, hv', hrest'⟩ := Memory.wfFrom_cons.1 hn
      have hle : k' ≤ k := Memory.lower_bound_le_head hm (Memory.wfFrom_cons.2 ⟨le_rfl, (Memory.wfFrom_cons.1 hn).2⟩) h
      have hge : k ≤ k' := Memory.lower_bound_le_head hn (Memory.wfFrom_cons.2 ⟨le_rfl, hk, hv, hrest⟩)
        fun a ha => (h a ha).symm
      obtain rfl : k = k' := le_antisymm hge hle
      have hvv : v = v' := by simpa using h k hk
      refine congrArg₂ List.cons (by rw [hvv]) (ih hrest hrest' fun a ha => ?_)
      by_cases hak : a = k
      · rw [Memory.read_of_lt hrest (by omega), Memory.read_of_lt hrest' (by omega)]
      · simpa [hak] using h a ha

/-- A checked store that succeeds is in bounds. -/
theorem State.memWrite_ok {s t : State} {a : Addr} {v : Byte} (h : s.memWrite a v = .ok t) :
    a.toNat < 256 ∧ t = s.setByte a.toNat v := by
  obtain hlt | hge := Nat.lt_or_ge a.toNat 256
  · cases (State.memWrite_of_lt hlt).symm.trans h
    exact ⟨hlt, rfl⟩
  · cases (State.memWrite_of_ge hge).symm.trans h

/-- Settles O32: the lists agree cell by cell, from the lowest address up. -/
theorem canonicalMemoryIsDeterminedByReads : Obligations.CanonicalMemoryIsDeterminedByReads := by
  unfold Obligations.CanonicalMemoryIsDeterminedByReads
  exact fun m n hm hn h => Memory.eq_of_read_eq hm hn h

/-- Settles O31: a store is one write of the list, a load a write for each byte, and the list is empty at power-on. -/
theorem memoryWriteIsReadBack : Obligations.MemoryWriteIsReadBack := by
  unfold Obligations.MemoryWriteIsReadBack
  refine ⟨fun s t a v hmem h => ?store, fun s image hmem hlen k hk => ?load, fun P a ha => State.memRead_of_lt ha⟩
  case store =>
    obtain ⟨hlt, rfl⟩ := State.memWrite_ok h
    refine ⟨?_, fun b hne => ?_, Memory.wf_write v hlt hmem⟩
    · rw [State.memRead_of_lt hlt, State.setByte_mem, Memory.read_write_self v hmem]
    · have hne' : b.toNat ≠ a.toNat := fun e => hne (BitVec.eq_of_toNat_eq e)
      unfold State.memRead
      rw [State.read_setByte_ne s v hne']
  case load =>
    have haddr : (BitVec.ofNat 9 k).toNat = k := by rw [BitVec.toNat_ofNat]; omega
    have hread := Memory.read_place_inside (k := 0) hmem (by omega) hk
    rw [Nat.zero_add] at hread
    rw [State.memRead_of_lt (by omega), haddr, State.load_mem, hread]

end Sys2Proof.Machine
end

section
/-! PROOFS. Reset, load and the host's controls (70_reset_and_hazards.md). -/

namespace Sys2Proof.Machine

/-- A load of at most 256 bytes before a run is accepted. -/
theorem Session.request_load {x : Session} {image : List Byte} (hlen : image.length ≤ 256) (hx : x.stepped = false) :
    x.request (.load image) = .next { x with machine := x.machine.load image } := by
  simp [Session.request, hx, hlen]

/-- A request that is accepted leaves the rest of the requests to its session. -/
theorem Session.requests_cons {x y : Session} {c : Control} {rest : List Control} (h : x.request c = .next y) :
    x.requests (c :: rest) = y.requests rest := by
  simp only [Session.requests, h]

/-- Settles O39: every component has its reset value but memory, which is canonical; a load keeps its form. -/
theorem resetAndLoadMeetInvariant : Obligations.ResetAndLoadMeetInvariant := by
  unfold Obligations.ResetAndLoadMeetInvariant
  refine fun P => ⟨State.invariant_iff.2 ⟨rfl, rfl, Nat.zero_le _, rfl⟩,
    fun s hmem => State.invariant_iff.2 ⟨hmem, rfl, Nat.zero_le _, rfl⟩, fun s image hlen hinv => ?_⟩
  obtain ⟨hmem, hrest⟩ := State.invariant_iff.1 hinv
  exact State.invariant_iff.2 ⟨Memory.wf_place (by omega) hmem, hrest⟩

/-- Settles O44: the reset state is a literal but for its register file, which is given by a function. -/
theorem resetValues : Obligations.ResetValues := by
  unfold Obligations.ResetValues
  refine ⟨rfl, fun P s => ⟨?_, fun a => rfl, rfl⟩⟩
  have hsp : (State.resetWith P).regs.get P.spIndex = 0xF3 := (RegFile.get_ofFn _ _).trans (if_pos rfl)
  have hother : ∀ i : Fin 8, i ≠ P.spIndex → (State.resetWith P).regs.get i = 0 := fun i hi =>
    (RegFile.get_ofFn _ _).trans (if_neg hi)
  rw [List.forall_mem_cons, List.forall_mem_singleton]
  exact ⟨⟨hsp, hother, rfl, rfl, rfl, rfl, rfl⟩, hsp, hother, rfl, rfl, rfl, rfl, rfl⟩

/-- Settles O45: an accepted load is one placing from address 0, and the two refusals are tested before it. -/
theorem loadPlacesImage : Obligations.LoadPlacesImage := by
  unfold Obligations.LoadPlacesImage
  refine fun x image hmem => ⟨fun hlen hx => ?accepted, fun hlen hx => ?tooLong, fun hx => ?duringRun⟩
  case accepted =>
    refine ⟨_, Session.request_load hlen hx, hx, fun k hk => ?_, fun k hk => ?_, Memory.wf_place (by omega) hmem,
      rfl, rfl, rfl, rfl, rfl, rfl⟩
    · simpa using Memory.read_place_inside (k := 0) hmem (by omega) hk
    · exact Memory.read_place_outside (.inr (by omega))
  case tooLong => simp [Session.request, hx, hlen]
  case duringRun => simp [Session.request, hx]

/-- Settles O46: initialise leaves memory, and the load leaves everything else. -/
theorem loadAndInitialiseCommute : Obligations.LoadAndInitialiseCommute := by
  unfold Obligations.LoadAndInitialiseCommute
  intro x image hlen
  refine ⟨{ machine := State.reset.load image, stepped := false }, ?_, ?_, rfl⟩
  · rw [Session.requests_cons rfl, Session.requests_cons (Session.request_load hlen rfl), Session.requests_cons rfl]
    rfl
  · rw [Session.requests_cons rfl, Session.requests_cons rfl, Session.requests_cons (Session.request_load hlen rfl)]
    rfl

/-! ### The run -/

/-- The step of the machine at the default parameters is total. -/
theorem step_next (s : State) : ∃ t, step s = .next t := by
  rw [step_eq_stepWith]
  exact stepWith_next _ s

/-- The controls' repeated steps are the host's run. -/
theorem stepsFor_eq_core_run (n : Nat) (s : State) : stepsFor n s = core.run n s := by
  induction n generalizing s with
  | zero => rfl
  | succ n ih =>
    obtain ⟨t, ht⟩ := step_next s
    rw [core_run_succ_of_step ht, ← ih, stepsFor, ht]

theorem core_run_next (n : Nat) (s : State) : ∃ t : State, core.run n s = .next t := by
  induction n generalizing s with
  | zero => exact ⟨s, rfl⟩
  | succ n ih =>
    obtain ⟨t, ht⟩ := step_next s
    rw [core_run_succ_of_step ht]
    exact ih t

theorem runToEnd_of_not_running {s : State} (hrun : s.run ≠ .running) (fuel : Nat) : runToEnd fuel s = some s := by
  cases hs : s.run with
  | running => exact absurd hs hrun
  | halted => simp [runToEnd, hs]
  | faulted => simp [runToEnd, hs]

theorem runToEnd_zero_of_running {s : State} (hrun : s.run = .running) : runToEnd 0 s = none := by
  unfold runToEnd
  simp [hrun]

theorem runToEnd_succ_of_running {s t : State} (hrun : s.run = .running) (hstep : step s = .next t) (fuel : Nat) :
    runToEnd (fuel + 1) s = runToEnd fuel t := by
  conv_lhs => unfold runToEnd
  simp [hrun, hstep]

/-- `e` is the first state of the run from `s` that is not `Running`, and `n` steps reach it. -/
def FirstStop (s e : State) (n : Nat) : Prop :=
  e.run ≠ .running ∧ core.run n s = .next e ∧ ∀ k < n, ∃ u : State, core.run k s = .next u ∧ u.run = .running

/-- A state that is not running is its own first stop, and the only one. -/
theorem firstStop_of_not_running {s e : State} {n : Nat} (hrun : s.run ≠ .running) :
    FirstStop s e n ↔ n = 0 ∧ s = e := by
  constructor
  · rintro ⟨-, hend, hbefore⟩
    cases n with
    | zero => cases hend; exact ⟨rfl, rfl⟩
    | succ n =>
      obtain ⟨u, hu, hrunning⟩ := hbefore 0 (Nat.succ_pos n)
      cases hu
      exact absurd hrunning hrun
  · rintro ⟨rfl, rfl⟩
    exact ⟨hrun, rfl, fun k hk => absurd hk (Nat.not_lt_zero k)⟩

/-- A running state does not stop in 0 steps. -/
theorem not_firstStop_zero {s e : State} (hrun : s.run = .running) : ¬ FirstStop s e 0 := by
  rintro ⟨hne, hend, -⟩
  cases hend
  exact hne hrun

/-- The first stop of a running state is that of its next state, one step later. -/
theorem firstStop_succ {s t e : State} {n : Nat} (hrun : s.run = .running) (hstep : step s = .next t) :
    FirstStop s e (n + 1) ↔ FirstStop t e n := by
  unfold FirstStop
  rw [core_run_succ_of_step hstep]
  refine and_congr_right fun _ => and_congr_right fun _ => ⟨fun h k hk => ?_, fun h k hk => ?_⟩
  · rw [← core_run_succ_of_step hstep]
    exact h (k + 1) (Nat.succ_lt_succ hk)
  · cases k with
    | zero => exact ⟨s, rfl, hrun⟩
    | succ k =>
      rw [core_run_succ_of_step hstep]
      exact h k (Nat.lt_of_succ_lt_succ hk)

/-- A run ends in the first stop that its fuel reaches. -/
theorem runToEnd_eq_some_iff (fuel : Nat) (s e : State) : runToEnd fuel s = some e ↔ ∃ n ≤ fuel, FirstStop s e n := by
  induction fuel generalizing s with
  | zero =>
    simp only [Nat.le_zero, exists_eq_left]
    by_cases hrun : s.run = .running
    · simp [runToEnd_zero_of_running hrun, not_firstStop_zero hrun]
    · simp [runToEnd_of_not_running hrun, firstStop_of_not_running hrun]
  | succ fuel ih =>
    by_cases hrun : s.run = .running
    · obtain ⟨t, hstep⟩ := step_next s
      rw [runToEnd_succ_of_running hrun hstep, ih]
      constructor
      · rintro ⟨n, hn, hstop⟩
        exact ⟨n + 1, Nat.succ_le_succ hn, (firstStop_succ hrun hstep).2 hstop⟩
      · rintro ⟨n, hn, hstop⟩
        cases n with
        | zero => exact absurd hstop (not_firstStop_zero hrun)
        | succ n => exact ⟨n, Nat.le_of_succ_le_succ hn, (firstStop_succ hrun hstep).1 hstop⟩
    · simp [runToEnd_of_not_running hrun, firstStop_of_not_running hrun]

/-- Settles O47: the run ends in the first stop that its fuel reaches, by induction on the fuel; more fuel reaches it
too. -/
theorem runIsRepeatedSteps : Obligations.RunIsRepeatedSteps := by
  unfold Obligations.RunIsRepeatedSteps
  refine ⟨fun fuel s e => (runToEnd_eq_some_iff fuel s e).trans ⟨?_, ?_⟩, fun fuel more s e h => ?_⟩
  · rintro ⟨n, hn, hne, hend, hbefore⟩
    exact ⟨hne, n, hn, hend, hbefore⟩
  · rintro ⟨hne, n, hn, hend, hbefore⟩
    exact ⟨n, hn, hne, hend, hbefore⟩
  · obtain ⟨n, hn, hstop⟩ := (runToEnd_eq_some_iff fuel s e).1 h
    exact (runToEnd_eq_some_iff _ s e).2 ⟨n, hn.trans (Nat.le_add_right fuel more), hstop⟩

/-- Settles O52: the two resets answer with the bit clear; a step and a run always answer, with the bit set. -/
theorem controlsTrackStepRequests : Obligations.ControlsTrackStepRequests := by
  unfold Obligations.ControlsTrackStepRequests
  refine fun x => ⟨⟨_, rfl, rfl, rfl⟩, ⟨_, rfl, rfl, rfl⟩, ?step, fun fuel => ?run⟩
  case step =>
    obtain ⟨t, ht⟩ := step_next x.machine
    exact ⟨{ machine := t, stepped := true }, by simp [Session.request, ht], ht, rfl⟩
  case run =>
    obtain ⟨t, ht⟩ := core_run_next fuel x.machine
    exact ⟨{ machine := t, stepped := true }, by simp [Session.request, stepsFor_eq_core_run, ht], ht, rfl⟩

/-! ### The first step after reset -/

/-- The window over a placed word, with room for it and canonical memory, is the word's bytes. -/
theorem fetchWindow_withFetchWord {s : State} (hmem : s.mem.wf = true) (hpc : s.pc.toNat + 3 ≤ 256) (nbits w : Nat) :
    (s.withFetchWord nbits w).fetchWindow = tableBytes nbits w := by
  have hlen : (tableBytes nbits w).length = 3 := rfl
  have htake : (tableBytes nbits w).take (256 - s.pc.toNat) = tableBytes nbits w :=
    List.take_of_length_le (by omega)
  have hmem' : (s.withFetchWord nbits w).mem = s.mem.place s.pc.toNat (tableBytes nbits w) :=
    congrArg (s.mem.place s.pc.toNat) htake
  have hpc' : (s.withFetchWord nbits w).pc = s.pc := rfl
  have hcells : min 3 (256 - s.pc.toNat) = 3 := by omega
  refine List.ext_getElem ?_ fun k hk hk' => ?_
  · simp [State.fetchWindow, hpc', hcells, hlen]
  · simp only [State.fetchWindow, hmem', hpc', List.getElem_map, List.getElem_range]
    exact Memory.read_place_inside hmem (by omega) hk'

/-- A table word is read by the decoder from its bytes. -/
theorem decode_of_decodeTableWord {nbits w : Nat} {i : Instr} (h : decodeTableWord nbits w = some i) :
    ∃ rest, decode (tableBytes nbits w) = .ok (i, rest) := by
  unfold decodeTableWord at h
  split at h
  · next j rest hdecode =>
    cases h
    exact ⟨rest, hdecode⟩
  · cases h

/-- Settles O50: the fetch window is the word's three bytes, and a step runs what its window decodes to. -/
theorem fetchWordRunsFirstAfterReset : Obligations.FetchWordRunsFirstAfterReset := by
  unfold Obligations.FetchWordRunsFirstAfterReset
  intro nbits w i h
  obtain ⟨rest, hdecode⟩ := decode_of_decodeTableWord h
  have hwindow := fetchWindow_withFetchWord (s := State.reset) rfl (by decide) nbits w
  exact stepRunsDecodedInstruction _ i rest rfl (hwindow ▸ hdecode)

end Sys2Proof.Machine
end

section
/-! PROOFS. The flags byte, the status port and the observation (10_state.md R14; 60_exceptions.md R121;
70_reset_and_hazards.md R148). -/

namespace Sys2Proof.Machine

/-- A flag is shown at its own bit only. -/
theorem flagBit_getLsbD (b : Bool) (k j : Fin 8) : (flagBit b k).getLsbD j.val = (b && decide (j = k)) := by
  revert b k j
  decide

/-- Settles O49: each bit of the byte is the disjunction of three flags shown, of which at most one is shown there. -/
theorem flagsByteShowsEachFlag : Obligations.FlagsByteShowsEachFlag := by
  unfold Obligations.FlagsByteShowsEachFlag
  intro K f k hK
  simp only [FlagPack.wf, Bool.and_eq_true, bne_iff_ne, ne_eq] at hK
  obtain ⟨⟨hlg, hle⟩, hge⟩ := hK
  simp only [Flags.toByte, BitVec.getLsbD_or, flagBit_getLsbD]
  split_ifs with hl hg he
  · subst hl; simp [hlg, hle]
  · subst hg; simp [hl, hge]
  · subst he; simp [hl, hg]
  · simp [hl, hg, he]

/-- Different operations have different codes. -/
theorem Access.code_injective {p q : Access} (h : p.code = q.code) : p = q := by
  cases p <;> cases q <;> cases h <;> rfl

/-- The information values determine the fault record. -/
theorem faultInfo_injective {f g : Option FaultRecord} (h : faultInfo f = faultInfo g) : f = g := by
  match f, g with
  | none, none => rfl
  | some (.decodeError _ _), some (.decodeError _ _) => cases h; rfl
  | some (.addressingError p v), some (.addressingError q w) =>
    obtain ⟨hcode, rfl⟩ := FaultInfo.addressing.inj (Option.some.inj h)
    rw [Access.code_injective hcode]

/-- Settles O51: the status port is computed from the fault record. -/
theorem statusPortShowsFaultCodes : Obligations.StatusPortShowsFaultCodes := by
  unfold Obligations.StatusPortShowsFaultCodes
  refine fun P s => ⟨fun h => ?none, fun opcode addr h => ?decodeError, fun op v h => ?addressingError⟩
  case none => simp [State.observe, h, causeCode, faultInfo]
  case decodeError => simp [State.observe, h, causeCode, faultInfo]
  case addressingError =>
    refine ⟨by simp [State.observe, h, causeCode], op.code, by simp [State.observe, h, faultInfo], ?_⟩
    cases op <;> decide

/-- Settles O48: each component is observed, the registers and the memory one by one. -/
theorem observationShowsTheWholeState : Obligations.ObservationShowsTheWholeState := by
  unfold Obligations.ObservationShowsTheWholeState
  intro P s t hs ht h
  obtain ⟨hrun, -, hinfo, hout, hregs, hflags, -, hpc, hmem⟩ := Observation.mk.inj h
  have hregs' : s.regs = t.regs := RegFile.eq_of_get fun i => List.map_inj_left.1 hregs i (List.mem_finRange i)
  have hmem' : s.mem = t.mem := canonicalMemoryIsDeterminedByReads s.mem t.mem hs ht fun a ha =>
    List.map_inj_left.1 hmem a (List.mem_range.2 ha)
  have hfault : s.fault = t.fault := faultInfo_injective hinfo
  cases s
  cases t
  simp only [State.mk.injEq]
  exact ⟨hregs', hflags, hpc, hrun, hfault, hmem', hout⟩

end Sys2Proof.Machine
end
